-- ==== Sys2Proof/Word.lean ====
section
/-! DEFINITION. The widths of the machine (R3, R7): unsigned bit vectors whose arithmetic wraps. -/

namespace Sys2Proof

/-- A 4-bit field of an instruction word; also a general register's index (R6, R21). -/
abbrev Nibble := BitVec 4

/-- A memory byte, a general register or a timer (R3). -/
abbrev Byte := BitVec 8

/-- The 12-bit address literal `nnn` (R9, R82). -/
abbrev Addr := BitVec 12

/-- An instruction word, I, PC, a stack entry, or the key snapshot (R3, R26, R33). -/
abbrev Word := BitVec 16

end Sys2Proof
end

