-- ==== Sys2Proof/Syntax.lean ====
section
/-! DEFINITION. The instruction syntax: one constructor per row of spec/opcode_table.json (R99). -/

namespace Sys2Proof

/-- The 35 instructions and the nine UNASSIGNED rows. `x` and `y` index V registers, `kk`, `nnn` and `n` are literals
(R9, R82). The nibbles a rule says are not examined (R88, R90, R92, R93) are kept as the fields named `ign…`, so that
an instruction says which word it came from (R95's aliases; the opcode a fault reports, R222). No meaning's effect
depends on them. Log 5. -/
inductive Instr where
  | cls (ignC ignB : Nibble)             -- 00E0        CLS (R190)
  | ret (ignC ignB : Nibble)             -- 00EE        RET (R111)
  | sys (nnn : Addr)                     -- 0nnn        SYS nnn (R110)
  | jp (nnn : Addr)                      -- 1nnn        JP nnn (R112)
  | call (nnn : Addr)                    -- 2nnn        CALL nnn (R113)
  | seByte (x : Nibble) (kk : Byte)      -- 3xkk        SE Vx, kk (R114)
  | sneByte (x : Nibble) (kk : Byte)     -- 4xkk        SNE Vx, kk (R115)
  | seReg (x y ignN : Nibble)            -- 5xy0        SE Vx, Vy (R116)
  | ldByte (x : Nibble) (kk : Byte)      -- 6xkk        LD Vx, kk (R140)
  | addByte (x : Nibble) (kk : Byte)     -- 7xkk        ADD Vx, kk (R141)
  | ldReg (x y : Nibble)                 -- 8xy0        LD Vx, Vy (R142)
  | or (x y : Nibble)                    -- 8xy1        OR Vx, Vy (R143)
  | and (x y : Nibble)                   -- 8xy2        AND Vx, Vy (R144)
  | xor (x y : Nibble)                   -- 8xy3        XOR Vx, Vy (R145)
  | addReg (x y : Nibble)                -- 8xy4        ADD Vx, Vy (R146)
  | sub (x y : Nibble)                   -- 8xy5        SUB Vx, Vy (R147)
  | shr (x y : Nibble)                   -- 8xy6        SHR Vx, Vy (R148)
  | subn (x y : Nibble)                  -- 8xy7        SUBN Vx, Vy (R149)
  | shl (x y : Nibble)                   -- 8xyE        SHL Vx, Vy (R150)
  | unassigned88 (ignX ignY : Nibble)    -- 8xy8        UNASSIGNED (R93)
  | unassigned89 (ignX ignY : Nibble)    -- 8xy9        UNASSIGNED (R93)
  | unassigned8A (ignX ignY : Nibble)    -- 8xyA        UNASSIGNED (R93)
  | unassigned8B (ignX ignY : Nibble)    -- 8xyB        UNASSIGNED (R93)
  | unassigned8C (ignX ignY : Nibble)    -- 8xyC        UNASSIGNED (R93)
  | unassigned8D (ignX ignY : Nibble)    -- 8xyD        UNASSIGNED (R93)
  | unassigned8F (ignX ignY : Nibble)    -- 8xyF        UNASSIGNED (R93)
  | sneReg (x y ignN : Nibble)           -- 9xy0        SNE Vx, Vy (R117)
  | ldI (nnn : Addr)                     -- Annn        LD I, nnn (R170)
  | jpV0 (nnn : Addr)                    -- Bnnn        JP V0, nnn (R118)
  | rnd (x : Nibble) (kk : Byte)         -- Cxkk        RND Vx, kk (R151)
  | drw (x y n : Nibble)                 -- Dxyn        DRW Vx, Vy, n (R191)
  | skp (x ignB : Nibble)                -- Ex9E        SKP Vx (R200)
  | sknp (x ignB : Nibble)               -- ExA1        SKNP Vx (R201)
  | unassignedE (ignX ignB a : Nibble)   -- Exba        UNASSIGNED (R93)
  | ldVxDT (x : Nibble)                  -- Fx07        LD Vx, DT (R202)
  | ldVxK (x : Nibble)                   -- Fx0A        LD Vx, K (R203)
  | ldDTVx (x : Nibble)                  -- Fx15        LD DT, Vx (R205)
  | ldSTVx (x : Nibble)                  -- Fx18        LD ST, Vx (R206)
  | addI (x : Nibble)                    -- Fx1E        ADD I, Vx (R171)
  | ldF (x : Nibble)                     -- Fx29        LD F, Vx (R172)
  | ldB (x : Nibble)                     -- Fx33        LD B, Vx (R173)
  | ldMemVx (x : Nibble)                 -- Fx55        LD [I], Vx (R174)
  | ldVxMem (x : Nibble)                 -- Fx65        LD Vx, [I] (R175)
  | unassignedF (ignX : Nibble) (kk : Byte) -- Fxkk     UNASSIGNED (R93)
deriving DecidableEq, Repr

end Sys2Proof
end

