-- ==== Sys2Proof/WellFormed.lean ====
section
/-! DEFINITION. Which terms of `Instr` some word encodes: the three residual rows (priority 2 of R99) exclude the
selectors their family gives to another instruction. -/

namespace Sys2Proof

/-- The selector `a` of a SYS word (R88): 0x0 is CLS and 0xE is RET. -/
def sysSelector (a : Nibble) : Bool := a != 0x0 && a != 0xE

/-- The selector `a` of an UNASSIGNED word of family 0xE (R90): 0xE is SKP and 0x1 is SKNP. -/
def unassignedSelectorE (a : Nibble) : Bool := a != 0xE && a != 0x1

/-- The selector `kk` of an UNASSIGNED word of family 0xF (R91). -/
def unassignedSelectorF (kk : Byte) : Bool :=
  kk != 0x07 && kk != 0x0A && kk != 0x15 && kk != 0x18 && kk != 0x1E && kk != 0x29 && kk != 0x33 && kk != 0x55 &&
    kk != 0x65

/-- Whether some instruction word stands for the term (R88 to R93). -/
def Instr.wellFormed : Instr → Bool
  | .sys nnn => sysSelector (nnn.extractLsb' 0 4)
  | .unassignedE _ _ a => unassignedSelectorE a
  | .unassignedF _ kk => unassignedSelectorF kk
  | .cls _ _ => true
  | .ret _ _ => true
  | .jp _ => true
  | .call _ => true
  | .seByte _ _ => true
  | .sneByte _ _ => true
  | .seReg _ _ _ => true
  | .ldByte _ _ => true
  | .addByte _ _ => true
  | .ldReg _ _ => true
  | .or _ _ => true
  | .and _ _ => true
  | .xor _ _ => true
  | .addReg _ _ => true
  | .sub _ _ => true
  | .shr _ _ => true
  | .subn _ _ => true
  | .shl _ _ => true
  | .unassigned88 _ _ => true
  | .unassigned89 _ _ => true
  | .unassigned8A _ _ => true
  | .unassigned8B _ _ => true
  | .unassigned8C _ _ => true
  | .unassigned8D _ _ => true
  | .unassigned8F _ _ => true
  | .sneReg _ _ _ => true
  | .ldI _ => true
  | .jpV0 _ => true
  | .rnd _ _ => true
  | .drw _ _ _ => true
  | .skp _ _ => true
  | .sknp _ _ => true
  | .ldVxDT _ => true
  | .ldVxK _ => true
  | .ldDTVx _ => true
  | .ldSTVx _ => true
  | .addI _ => true
  | .ldF _ => true
  | .ldB _ => true
  | .ldMemVx _ => true
  | .ldVxMem _ => true

end Sys2Proof
end

