-- ==== Sys2Proof/Decode.lean ====
section
/-! DEFINITION. From words to instructions and back (R80 to R99): the fields of a word, the two-level dispatch, the
encoder, the byte order of an instruction in memory, and the opcode table as data. -/

namespace Sys2Proof

/-! ## Fields (R6, R81, R82) -/

/-- `d`, bits 15 to 12: the family selector. -/
def fieldD (w : Word) : Nibble := w.extractLsb' 12 4
/-- `c` = `x`, bits 11 to 8. -/
def fieldC (w : Word) : Nibble := w.extractLsb' 8 4
/-- `b` = `y`, bits 7 to 4. -/
def fieldB (w : Word) : Nibble := w.extractLsb' 4 4
/-- `a` = `n`, bits 3 to 0. -/
def fieldA (w : Word) : Nibble := w.extractLsb' 0 4

/-- The word with nibbles `d c b a`, from the most significant (R6). -/
def ofNibbles (d c b a : Nibble) : Word :=
  d.setWidth 16 <<< 12 ||| c.setWidth 16 <<< 8 ||| b.setWidth 16 <<< 4 ||| a.setWidth 16

/-- `kk = (b<<4)|a` (R9, R82). -/
def byteOf (b a : Nibble) : Byte := b.setWidth 8 <<< 4 ||| a.setWidth 8

/-- `nnn = (c<<8)|(b<<4)|a` (R9, R82). -/
def addrOf (c b a : Nibble) : Addr := c.setWidth 12 <<< 8 ||| b.setWidth 12 <<< 4 ||| a.setWidth 12

/-! ## Dispatch (R87 to R93) -/

/-- Family 0x0 selects by `a` alone (R88). -/
def decode0 (c b a : Nibble) : Instr :=
  match a with
  | 0x0 => .cls c b
  | 0xE => .ret c b
  | _ => .sys (addrOf c b a)

/-- Family 0x8 selects by `a` (R89). -/
def decode8 (c b a : Nibble) : Instr :=
  match a with
  | 0x0 => .ldReg c b
  | 0x1 => .or c b
  | 0x2 => .and c b
  | 0x3 => .xor c b
  | 0x4 => .addReg c b
  | 0x5 => .sub c b
  | 0x6 => .shr c b
  | 0x7 => .subn c b
  | 0x8 => .unassigned88 c b
  | 0x9 => .unassigned89 c b
  | 0xA => .unassigned8A c b
  | 0xB => .unassigned8B c b
  | 0xC => .unassigned8C c b
  | 0xD => .unassigned8D c b
  | 0xE => .shl c b
  | _ => .unassigned8F c b   -- 0xF, the one value left

/-- Family 0xE selects by `a` (R90). -/
def decodeE (c b a : Nibble) : Instr :=
  match a with
  | 0xE => .skp c b
  | 0x1 => .sknp c b
  | _ => .unassignedE c b a

/-- Family 0xF selects by the low byte `kk` (R91). -/
def decodeF (x : Nibble) (kk : Byte) : Instr :=
  match kk with
  | 0x07 => .ldVxDT x
  | 0x0A => .ldVxK x
  | 0x15 => .ldDTVx x
  | 0x18 => .ldSTVx x
  | 0x1E => .addI x
  | 0x29 => .ldF x
  | 0x33 => .ldB x
  | 0x55 => .ldMemVx x
  | 0x65 => .ldVxMem x
  | _ => .unassignedF x kk

/-- The first level: the family is selected by `d` (R87, R92). -/
def decodeFields (d c b a : Nibble) : Instr :=
  match d with
  | 0x0 => decode0 c b a
  | 0x1 => .jp (addrOf c b a)
  | 0x2 => .call (addrOf c b a)
  | 0x3 => .seByte c (byteOf b a)
  | 0x4 => .sneByte c (byteOf b a)
  | 0x5 => .seReg c b a
  | 0x6 => .ldByte c (byteOf b a)
  | 0x7 => .addByte c (byteOf b a)
  | 0x8 => decode8 c b a
  | 0x9 => .sneReg c b a
  | 0xA => .ldI (addrOf c b a)
  | 0xB => .jpV0 (addrOf c b a)
  | 0xC => .rnd c (byteOf b a)
  | 0xD => .drw c b a
  | 0xE => decodeE c b a
  | _ => decodeF c (byteOf b a)   -- 0xF, the one value left

/-- Decoding, a total function over all 65536 words that rejects none (R83, R94). -/
def decode (w : Word) : Instr := decodeFields (fieldD w) (fieldC w) (fieldB w) (fieldA w)

/-! ## Encoding -/

/-- The word of pattern `dxkk`. -/
def encodeXkk (d x : Nibble) (kk : Byte) : Word := ofNibbles d x (kk.extractLsb' 4 4) (kk.extractLsb' 0 4)

/-- The word of pattern `dnnn`. -/
def encodeNnn (d : Nibble) (nnn : Addr) : Word :=
  ofNibbles d (nnn.extractLsb' 8 4) (nnn.extractLsb' 4 4) (nnn.extractLsb' 0 4)

/-- The word of an instruction: its canonical pattern (R97) with the nibbles that are not examined as the term has
them (R95). -/
def encode : Instr → Word
  | .cls c b => ofNibbles 0x0 c b 0x0
  | .ret c b => ofNibbles 0x0 c b 0xE
  | .sys nnn => encodeNnn 0x0 nnn
  | .jp nnn => encodeNnn 0x1 nnn
  | .call nnn => encodeNnn 0x2 nnn
  | .seByte x kk => encodeXkk 0x3 x kk
  | .sneByte x kk => encodeXkk 0x4 x kk
  | .seReg x y n => ofNibbles 0x5 x y n
  | .ldByte x kk => encodeXkk 0x6 x kk
  | .addByte x kk => encodeXkk 0x7 x kk
  | .ldReg x y => ofNibbles 0x8 x y 0x0
  | .or x y => ofNibbles 0x8 x y 0x1
  | .and x y => ofNibbles 0x8 x y 0x2
  | .xor x y => ofNibbles 0x8 x y 0x3
  | .addReg x y => ofNibbles 0x8 x y 0x4
  | .sub x y => ofNibbles 0x8 x y 0x5
  | .shr x y => ofNibbles 0x8 x y 0x6
  | .subn x y => ofNibbles 0x8 x y 0x7
  | .shl x y => ofNibbles 0x8 x y 0xE
  | .unassigned88 x y => ofNibbles 0x8 x y 0x8
  | .unassigned89 x y => ofNibbles 0x8 x y 0x9
  | .unassigned8A x y => ofNibbles 0x8 x y 0xA
  | .unassigned8B x y => ofNibbles 0x8 x y 0xB
  | .unassigned8C x y => ofNibbles 0x8 x y 0xC
  | .unassigned8D x y => ofNibbles 0x8 x y 0xD
  | .unassigned8F x y => ofNibbles 0x8 x y 0xF
  | .sneReg x y n => ofNibbles 0x9 x y n
  | .ldI nnn => encodeNnn 0xA nnn
  | .jpV0 nnn => encodeNnn 0xB nnn
  | .rnd x kk => encodeXkk 0xC x kk
  | .drw x y n => ofNibbles 0xD x y n
  | .skp x b => ofNibbles 0xE x b 0xE
  | .sknp x b => ofNibbles 0xE x b 0x1
  | .unassignedE x b a => ofNibbles 0xE x b a
  | .ldVxDT x => encodeXkk 0xF x 0x07
  | .ldVxK x => encodeXkk 0xF x 0x0A
  | .ldDTVx x => encodeXkk 0xF x 0x15
  | .ldSTVx x => encodeXkk 0xF x 0x18
  | .addI x => encodeXkk 0xF x 0x1E
  | .ldF x => encodeXkk 0xF x 0x29
  | .ldB x => encodeXkk 0xF x 0x33
  | .ldMemVx x => encodeXkk 0xF x 0x55
  | .ldVxMem x => encodeXkk 0xF x 0x65
  | .unassignedF x kk => encodeXkk 0xF x kk

/-! ## Byte order (R53) -/

/-- The byte at the lower address: the high byte of the word. -/
def highByte (w : Word) : Byte := w.extractLsb' 8 8
/-- The byte at the higher address: the low byte of the word. -/
def lowByte (w : Word) : Byte := w.extractLsb' 0 8

/-- The word whose high byte is `hi` and low byte `lo` (R84). -/
def wordOf (hi lo : Byte) : Word := hi.setWidth 16 <<< 8 ||| lo.setWidth 16

/-- An instruction's two bytes, in the order memory holds them. -/
def encodeBytes (i : Instr) : List Byte := [highByte (encode i), lowByte (encode i)]

/-- Why a byte sequence does not begin with an instruction. -/
inductive DecodeError where
  /-- Fewer than two bytes are left: an instruction is always two bytes (R80). Safe: the fetch always reads two bytes
  (R84), so no step meets it. -/
  | truncated
deriving DecidableEq, Repr

/-- Read one instruction from the front of a byte sequence, and give back the rest. -/
def decodeBytes : List Byte → Except DecodeError (Instr × List Byte)
  | hi :: lo :: rest => .ok (decode (wordOf hi lo), rest)
  | [_] => .error .truncated
  | [] => .error .truncated

/-- The instruction the decoder reads from an instruction whose bits are `w`, numbered as spec/opcode_table.json
numbers them; bits from `nbits` up are zero. No instruction is longer than 16 bits (R80). -/
def decodeTableWord (nbits w : Nat) : Option Instr :=
  if nbits ≤ 16 then
    let word : Word := BitVec.ofNat 16 (w % 2 ^ nbits)
    match decodeBytes [highByte word, lowByte word] with
    | .ok (i, _) => some i
    | .error _ => none
  else none

/-! ## The opcode table as data (R99) -/

/-- A row of spec/opcode_table.json: it matches `w` when `w &&& mask = bits`. -/
structure TableRow where
  bits : Word
  mask : Word
  priority : Nat
deriving DecidableEq, Repr

/-- Whether the row matches the word. -/
def TableRow.covers (r : TableRow) (w : Word) : Bool := w &&& r.mask == r.bits

/-- The row each constructor stands for. -/
def Instr.row : Instr → TableRow
  | .cls _ _ => ⟨0x0000, 0xF00F, 1⟩
  | .ret _ _ => ⟨0x000E, 0xF00F, 1⟩
  | .sys _ => ⟨0x0000, 0xF000, 2⟩
  | .jp _ => ⟨0x1000, 0xF000, 1⟩
  | .call _ => ⟨0x2000, 0xF000, 1⟩
  | .seByte _ _ => ⟨0x3000, 0xF000, 1⟩
  | .sneByte _ _ => ⟨0x4000, 0xF000, 1⟩
  | .seReg _ _ _ => ⟨0x5000, 0xF000, 1⟩
  | .ldByte _ _ => ⟨0x6000, 0xF000, 1⟩
  | .addByte _ _ => ⟨0x7000, 0xF000, 1⟩
  | .ldReg _ _ => ⟨0x8000, 0xF00F, 1⟩
  | .or _ _ => ⟨0x8001, 0xF00F, 1⟩
  | .and _ _ => ⟨0x8002, 0xF00F, 1⟩
  | .xor _ _ => ⟨0x8003, 0xF00F, 1⟩
  | .addReg _ _ => ⟨0x8004, 0xF00F, 1⟩
  | .sub _ _ => ⟨0x8005, 0xF00F, 1⟩
  | .shr _ _ => ⟨0x8006, 0xF00F, 1⟩
  | .subn _ _ => ⟨0x8007, 0xF00F, 1⟩
  | .shl _ _ => ⟨0x800E, 0xF00F, 1⟩
  | .unassigned88 _ _ => ⟨0x8008, 0xF00F, 1⟩
  | .unassigned89 _ _ => ⟨0x8009, 0xF00F, 1⟩
  | .unassigned8A _ _ => ⟨0x800A, 0xF00F, 1⟩
  | .unassigned8B _ _ => ⟨0x800B, 0xF00F, 1⟩
  | .unassigned8C _ _ => ⟨0x800C, 0xF00F, 1⟩
  | .unassigned8D _ _ => ⟨0x800D, 0xF00F, 1⟩
  | .unassigned8F _ _ => ⟨0x800F, 0xF00F, 1⟩
  | .sneReg _ _ _ => ⟨0x9000, 0xF000, 1⟩
  | .ldI _ => ⟨0xA000, 0xF000, 1⟩
  | .jpV0 _ => ⟨0xB000, 0xF000, 1⟩
  | .rnd _ _ => ⟨0xC000, 0xF000, 1⟩
  | .drw _ _ _ => ⟨0xD000, 0xF000, 1⟩
  | .skp _ _ => ⟨0xE00E, 0xF00F, 1⟩
  | .sknp _ _ => ⟨0xE001, 0xF00F, 1⟩
  | .unassignedE _ _ _ => ⟨0xE000, 0xF000, 2⟩
  | .ldVxDT _ => ⟨0xF007, 0xF0FF, 1⟩
  | .ldVxK _ => ⟨0xF00A, 0xF0FF, 1⟩
  | .ldDTVx _ => ⟨0xF015, 0xF0FF, 1⟩
  | .ldSTVx _ => ⟨0xF018, 0xF0FF, 1⟩
  | .addI _ => ⟨0xF01E, 0xF0FF, 1⟩
  | .ldF _ => ⟨0xF029, 0xF0FF, 1⟩
  | .ldB _ => ⟨0xF033, 0xF0FF, 1⟩
  | .ldMemVx _ => ⟨0xF055, 0xF0FF, 1⟩
  | .ldVxMem _ => ⟨0xF065, 0xF0FF, 1⟩
  | .unassignedF _ _ => ⟨0xF000, 0xF000, 2⟩

/-- The 44 rows of spec/opcode_table.json, in its order. -/
def opcodeTable : List TableRow :=
  [⟨0x0000, 0xF00F, 1⟩, ⟨0x000E, 0xF00F, 1⟩, ⟨0x0000, 0xF000, 2⟩, ⟨0x1000, 0xF000, 1⟩, ⟨0x2000, 0xF000, 1⟩,
   ⟨0x3000, 0xF000, 1⟩, ⟨0x4000, 0xF000, 1⟩, ⟨0x5000, 0xF000, 1⟩, ⟨0x6000, 0xF000, 1⟩, ⟨0x7000, 0xF000, 1⟩] ++
  [⟨0x8000, 0xF00F, 1⟩, ⟨0x8001, 0xF00F, 1⟩, ⟨0x8002, 0xF00F, 1⟩, ⟨0x8003, 0xF00F, 1⟩, ⟨0x8004, 0xF00F, 1⟩,
   ⟨0x8005, 0xF00F, 1⟩, ⟨0x8006, 0xF00F, 1⟩, ⟨0x8007, 0xF00F, 1⟩, ⟨0x800E, 0xF00F, 1⟩, ⟨0x8008, 0xF00F, 1⟩,
   ⟨0x8009, 0xF00F, 1⟩, ⟨0x800A, 0xF00F, 1⟩, ⟨0x800B, 0xF00F, 1⟩, ⟨0x800C, 0xF00F, 1⟩, ⟨0x800D, 0xF00F, 1⟩,
   ⟨0x800F, 0xF00F, 1⟩] ++
  [⟨0x9000, 0xF000, 1⟩, ⟨0xA000, 0xF000, 1⟩, ⟨0xB000, 0xF000, 1⟩, ⟨0xC000, 0xF000, 1⟩, ⟨0xD000, 0xF000, 1⟩,
   ⟨0xE00E, 0xF00F, 1⟩, ⟨0xE001, 0xF00F, 1⟩, ⟨0xE000, 0xF000, 2⟩] ++
  [⟨0xF007, 0xF0FF, 1⟩, ⟨0xF00A, 0xF0FF, 1⟩, ⟨0xF015, 0xF0FF, 1⟩, ⟨0xF018, 0xF0FF, 1⟩, ⟨0xF01E, 0xF0FF, 1⟩,
   ⟨0xF029, 0xF0FF, 1⟩, ⟨0xF033, 0xF0FF, 1⟩, ⟨0xF055, 0xF0FF, 1⟩, ⟨0xF065, 0xF0FF, 1⟩, ⟨0xF000, 0xF000, 2⟩]

/-- The rows a word decodes to: the priority-1 rows it matches, or, if it matches none, the priority-2 rows. -/
def tableWinners (w : Word) : List TableRow :=
  let first := opcodeTable.filter fun r => r.priority == 1 && r.covers w
  if first.isEmpty then opcodeTable.filter fun r => r.priority == 2 && r.covers w else first

end Sys2Proof
end

