-- ==== Sys2Proof/Config.lean ====
section
/-! DEFINITION. What is fixed for the machine but not decided by it: the free values of the two input ports.
The parameters FONT and STACK_DEPTH (R4) stand in Machine/Params.lean. -/

namespace Sys2Proof

/-- The `n`-th KEYS sample a STEP outside the driver's schedule takes (R33): a FREE VALUE, with no body, so that no
proof can know it. Log 3. -/
opaque Config.keysAt : Nat → Word

/-- The `n`-th RND sample a STEP outside the driver's schedule takes (R34: "The engine places no law on the values RND
takes"): a FREE VALUE. Log 3. -/
opaque Config.rndAt : Nat → Byte

end Sys2Proof
end

