-- ==== Sys2Proof/Machine/State.lean ====
section
/-! DEFINITION. The state of the machine as plain data: the spec's aggregate (R20), the driver's side of the interface
(R33, R34, R36), the reasons a step stops, and the state after RESET (R35). -/

namespace Sys2Proof.Machine

/-- Memory: the cells that differ from their RESET contents, at strictly rising addresses (R50; Machine/Memory.lean
says what an unlisted address reads as). -/
abbrev Memory := List Host.Cell

/-- The display surface: 32 rows of 64 boolean cells, row-major, `disp[y][x]` (R61). -/
abbrev Disp := Vector (Vector Bool 64) 32

/-- The key-wait register (R29). -/
structure KeyWait where
  /-- the engine is "awaiting key" -/
  valid : Bool
  /-- the register the key will be written to -/
  x : Nibble
deriving DecidableEq, Repr

/-- The engine's architectural state: "one aggregate with these parts and nothing else" (R20). -/
structure Engine where
  /-- the general registers V0 to VF (R21); VF is also the flag (R22) -/
  V : Vector Byte 16
  /-- the index register (R23) -/
  I : Word
  /-- the program counter (R24) -/
  pc : Word
  /-- the delay timer (R25) -/
  DT : Byte
  /-- the sound timer (R25) -/
  ST : Byte
  /-- the call stack, bottom first, top last (R26 to R28) -/
  stack : List Word
  /-- the key-wait register (R29) -/
  KW : KeyWait
  /-- the 4096-byte memory (R50) -/
  mem : Memory
  /-- the display surface (R61) -/
  disp : Disp
deriving DecidableEq, Repr

/-- The four state-changing operations of the engine, with their inputs (R36 to R41). -/
inductive DriverOp where
  | step (keys : Word) (rnd : Byte)
  | tick
  | reset
  | load (image : List Byte)
deriving DecidableEq, Repr

/-- The engine together with the model's own fields for the driver's side. -/
structure State extends Engine where
  /-- The KEYS sample of the STEP in progress: bit `k` is key `k` (R33). Log 1. -/
  keys : Word
  /-- The RND sample of the STEP in progress (R34). Log 1. -/
  rnd : Byte
  /-- The operations the driver invokes next, in order; every order is admitted (R36). Log 2. -/
  pending : List DriverOp
  /-- How many free input samples have been taken (Config.keysAt, Config.rndAt). Log 3. -/
  draws : Nat
deriving DecidableEq, Repr

/-- The engine's two faults (R220), each with the report of R222. A fault ends the run of the model: the engine has
written no state, so the state after it is the state before the step. Log 6. -/
inductive Fault where
  /-- CALL with the stack full (R27, R113). Raised by execCall. Safe: the spec names this fault, and the model stops
  where the driver may go on from the unchanged state. -/
  | stackOverflow (opcode pc : Word)
  /-- RET with the stack empty (R28, R111). Raised by execRet. Safe: as above. -/
  | stackUnderflow (opcode pc : Word)
deriving DecidableEq, Repr

/-- Why the model has no next state for an instruction. -/
inductive Refusal where
  /-- An instruction with no meaning yet, by its mnemonic in spec/opcode_table.json. Raised by no arm of exec. Safe. -/
  | notModelled (mnemonic : String)
deriving DecidableEq, Repr

/-- STATUS, the result of one STEP (R38), with the fault report (R222). It is a result, not a register (R30). -/
inductive Status where
  | ok
  | awaitingKey
  | stackOverflow (opcode pc : Word)
  | stackUnderflow (opcode pc : Word)
deriving DecidableEq, Repr

/-- The result of LOAD (R40). -/
inductive LoadResult where
  | loaded
  | imageTooLarge
deriving DecidableEq, Repr

/-- The engine after RESET (R35): memory holds its RESET contents, so it lists nothing. -/
def Engine.reset : Engine where
  V := Vector.replicate 16 0x00
  I := 0x0000
  pc := 0x0200
  DT := 0x00
  ST := 0x00
  stack := []
  KW := ⟨false, 0x0⟩
  mem := []
  disp := Vector.replicate 32 (Vector.replicate 64 false)

/-- The machine right after RESET, which is also the state at construction (R251). The model's own fields have the
values log 1, 2 and 3 name. -/
def State.reset : State where
  toEngine := Engine.reset
  keys := 0x0000
  rnd := 0x00
  pending := []
  draws := 0

end Sys2Proof.Machine
end

