-- ==== Sys2Proof/Machine/Params.lean ====
section
/-! DEFINITION. The named parameters of the hardware (R4) at the values the spec gives them. -/

namespace Sys2Proof.Machine

/-- FONT: the 80 bytes RESET writes at 0x000, sixteen glyphs of five rows each, top row first, at the conventional
value of R55. PRESUMED (the spec marks the bytes as general knowledge). Log 4. -/
def font : List Byte :=
  [0xF0, 0x90, 0x90, 0x90, 0xF0] ++   -- 0
  [0x20, 0x60, 0x20, 0x20, 0x70] ++   -- 1
  [0xF0, 0x10, 0xF0, 0x80, 0xF0] ++   -- 2
  [0xF0, 0x10, 0xF0, 0x10, 0xF0] ++   -- 3
  [0x90, 0x90, 0xF0, 0x10, 0x10] ++   -- 4
  [0xF0, 0x80, 0xF0, 0x10, 0xF0] ++   -- 5
  [0xF0, 0x80, 0xF0, 0x90, 0xF0] ++   -- 6
  [0xF0, 0x10, 0x20, 0x40, 0x40] ++   -- 7
  [0xF0, 0x90, 0xF0, 0x90, 0xF0] ++   -- 8
  [0xF0, 0x90, 0xF0, 0x10, 0xF0] ++   -- 9
  [0xF0, 0x90, 0xF0, 0x90, 0x90] ++   -- A
  [0xE0, 0x90, 0xE0, 0x90, 0xE0] ++   -- B
  [0xF0, 0x80, 0x80, 0x80, 0xF0] ++   -- C
  [0xE0, 0x90, 0x90, 0x90, 0xE0] ++   -- D
  [0xF0, 0x80, 0xF0, 0x80, 0xF0] ++   -- E
  [0xF0, 0x80, 0xF0, 0x80, 0x80]      -- F

/-- STACK_DEPTH: the call stack's bound (R4, R26; the spec's decision D2). Log 7. -/
def stackDepth : Nat := 16

/-- PROG_BASE: where LOAD writes the program image (R4, R253). -/
def progBase : Nat := 0x200

/-- MAX_IMAGE: the longest image LOAD accepts, in bytes (R4, R254). -/
def maxImage : Nat := 3584

end Sys2Proof.Machine
end

