-- ==== Sys2Proof/Machine/Memory.lean ====
section
/-! DEFINITION. The memory primitives (R52): every address is reduced modulo 4096, no access faults, and a write keeps
the list of cells canonical. -/

namespace Sys2Proof.Machine

/-- What an unlisted address reads as: its contents after RESET, FONT at 0x000 to 0x04F and 0x00 above (R35, R54). -/
def Memory.initial (addr : Nat) : Byte := font.getD addr 0x00

/-- The byte a list of cells holds at an address, if it lists the address. -/
def Memory.find? : Memory → Nat → Option Byte
  | [], _ => none
  | (k, b) :: rest, addr => if k = addr then some b else Memory.find? rest addr

/-- `MemRead(addr, 1)` (R52). -/
def Memory.read (m : Memory) (addr : Nat) : Byte :=
  (Memory.find? m (addr % 4096)).getD (Memory.initial (addr % 4096))

/-- Drop every cell at an address. -/
def Memory.erase : Memory → Nat → Memory
  | [], _ => []
  | (k, b) :: rest, addr => if k = addr then Memory.erase rest addr else (k, b) :: Memory.erase rest addr

/-- Put a cell in its place, over the one at the same address if there is one. -/
def Memory.insert : Memory → Nat → Byte → Memory
  | [], addr, v => [(addr, v)]
  | (k, b) :: rest, addr, v =>
    if addr < k then (addr, v) :: (k, b) :: rest
    else if addr = k then (addr, v) :: rest
    else (k, b) :: Memory.insert rest addr v

/-- `MemWrite(addr, 1, v)` (R52). Writing the value an unlisted address reads as removes the cell. -/
def Memory.write (m : Memory) (addr : Nat) (v : Byte) : Memory :=
  if v = Memory.initial (addr % 4096) then Memory.erase m (addr % 4096) else Memory.insert m (addr % 4096) v

/-- Write a run of bytes at consecutive addresses, ascending (R57). -/
def Memory.writeBytes (m : Memory) (addr : Nat) : List Byte → Memory
  | [] => m
  | b :: rest => Memory.writeBytes (Memory.write m addr b) (addr + 1) rest

/-- The cells' addresses rise strictly from `low` and stay below 4096, and no cell holds what an unlisted address
reads as. -/
def Memory.wfFrom : Nat → Memory → Bool
  | _, [] => true
  | low, (k, b) :: rest => decide (low ≤ k) && decide (k < 4096) && b != Memory.initial k && Memory.wfFrom (k + 1) rest

/-- The canonical form: equal memories are equal lists. -/
def Memory.wf (m : Memory) : Bool := Memory.wfFrom 0 m

end Sys2Proof.Machine
end

