-- ==== Sys2Proof/Machine/Surface.lean ====
section
/-! DEFINITION. The display primitives (R61 to R63): coordinates wrap modulo 64 and 32. -/

namespace Sys2Proof.Machine

/-- The cell at the wrapped coordinates (R61). -/
def Disp.cell (d : Disp) (x y : Nat) : Bool :=
  (d[y % 32]'(Nat.mod_lt _ (by decide)))[x % 64]'(Nat.mod_lt _ (by decide))

/-- `ClearDisplay()`: every cell false (R62). -/
def Disp.blank : Disp := Vector.replicate 32 (Vector.replicate 64 false)

/-- The surface after `Toggle(x, y)`; what Toggle returns is the cell before, `d.cell x y` (R63). -/
def Disp.toggle (d : Disp) (x y : Nat) : Disp :=
  d.set (y % 32) ((d[y % 32]'(Nat.mod_lt _ (by decide))).set (x % 64) (!d.cell x y) (Nat.mod_lt _ (by decide)))
    (Nat.mod_lt _ (by decide))

/-- One toggle of a sprite: the surface, and whether an on cell has been turned off so far (R191). -/
def Disp.toggleHit (acc : Disp × Bool) (x y : Nat) : Disp × Bool := (acc.1.toggle x y, acc.2 || acc.1.cell x y)

/-- One sprite row at `(x, y)`: its set bits toggle, bit 7 leftmost (R191, R192). -/
def Disp.drawRow (row : Byte) (x y : Nat) (acc : Disp × Bool) : Disp × Bool :=
  (List.range 8).foldl (fun acc k => if row.getLsbD (7 - k) then Disp.toggleHit acc (x + k) y else acc) acc

/-- A sprite's rows, top to bottom (R191, R192). -/
def Disp.drawRows : List Byte → Nat → Nat → Disp × Bool → Disp × Bool
  | [], _, _, acc => acc
  | row :: rows, x, y, acc => Disp.drawRows rows x (y + 1) (Disp.drawRow row x y acc)

end Sys2Proof.Machine
end

