-- ==== Sys2Proof/Machine/Ops.lean ====
section
/-! DEFINITION. The named operations every meaning is built from: registers, the program counter, the timers, the call
stack, memory and the display of a state, the fetch, the input samples, the fault, and the operations TICK, RESET and
LOAD. -/

namespace Sys2Proof.Machine

/-! ## Registers (R7, R8) -/

/-- `V[x]` (R21). -/
def State.reg (s : State) (x : Nibble) : Byte := s.V[x.toNat]'x.isLt
/-- `V[x] <- b`. -/
def State.setReg (s : State) (x : Nibble) (b : Byte) : State := { s with V := s.V.set x.toNat b x.isLt }
/-- `I <- w` (R23). -/
def State.setI (s : State) (w : Word) : State := { s with I := w }
/-- `pc <- w` (R24). -/
def State.setPc (s : State) (w : Word) : State := { s with pc := w }
/-- `adv(k)`: modulo 65536 (R8, R86). -/
def State.adv (s : State) (k : Word) : State := s.setPc (s.pc + k)
/-- `DT <- b` (R25). -/
def State.setDT (s : State) (b : Byte) : State := { s with DT := b }
/-- `ST <- b` (R25). -/
def State.setST (s : State) (b : Byte) : State := { s with ST := b }
/-- Write the key-wait register (R29). -/
def State.setKW (s : State) (kw : KeyWait) : State := { s with KW := kw }
/-- Replace the call stack. -/
def State.setStack (s : State) (st : List Word) : State := { s with stack := st }

/-! ## Memory and display -/

/-- `MemRead(addr, 1)` (R52). -/
def State.read (s : State) (addr : Nat) : Byte := Memory.read s.mem addr
/-- Replace the memory. -/
def State.setMem (s : State) (m : Memory) : State := { s with mem := m }
/-- `MemWrite(addr, 1, b)` (R52). -/
def State.write (s : State) (addr : Nat) (b : Byte) : State := s.setMem (Memory.write s.mem addr b)
/-- Replace the display surface. -/
def State.setDisp (s : State) (d : Disp) : State := { s with disp := d }

/-! ## Call stack (R26 to R28) -/

/-- `Push(v)`: nothing where the stack is full (R27). Log 7. -/
def State.push? (s : State) (v : Word) : Option State :=
  if stackDepth ≤ s.stack.length then none else some (s.setStack (s.stack ++ [v]))

/-- `Pop()`: the top entry and the state without it; nothing where the stack is empty (R28). -/
def State.pop? (s : State) : Option (Word × State) :=
  match s.stack.getLast? with
  | some v => some (v, s.setStack s.stack.dropLast)
  | none => none

/-! ## Faults (R220 to R225) -/

/-- `raise Fault(code)`: the step ends, no state is written, and the driver gets the code, the opcode and the PC it was
fetched from (R222). There is no return from a fault (R225). -/
def raise (code : Word → Word → Fault) (opcode : Word) (s : State) : Host.Outcome State Fault Refusal :=
  .fault (code opcode s.pc)

/-! ## Fetch and input samples -/

/-- `Fetch()`: the high byte at PC and the low byte at PC+1, each modulo 4096 (R84, R59). -/
def State.fetch (s : State) : Word := wordOf (s.read s.pc.toNat) (s.read (s.pc.toNat + 1))

/-- `keys <- KEYS; rnd <- RND`: sampled once, held for the whole step (R33, R34, R85). -/
def State.sample (s : State) (keys : Word) (rnd : Byte) : State := { s with keys := keys, rnd := rnd }

/-- The operation the driver invokes next (R36). When its schedule is empty it goes on with a STEP whose inputs are
free values. Log 2, log 3. -/
def State.takeOp (s : State) : DriverOp × State :=
  match s.pending with
  | op :: rest => (op, { s with pending := rest })
  | [] => (.step (Config.keysAt s.draws) (Config.rndAt s.draws), { s with draws := s.draws + 1 })

/-! ## Keys (R207, R208) -/

/-- `KeyDown(k)`: `k ≤ 15` and key `k` is pressed in this step's snapshot (R208). -/
def State.keyDown (s : State) (k : Nat) : Bool := decide (k ≤ 15) && s.keys.getLsbD k

/-- `ChosenKey()`, the lowest-numbered pressed key, or nothing where no key is pressed (`AnyDown()` false) (R207). -/
def State.chosenKey? (s : State) : Option Byte :=
  ((List.range 16).find? fun k => s.keys.getLsbD k).map (BitVec.ofNat 8)

/-- `ResumeKeyWait()`: run in place of the fetch while KW.valid = 1 (R204). KW.x keeps its value. -/
def State.resumeKeyWait (s : State) : State :=
  match s.chosenKey? with
  | some key => ((s.setReg s.KW.x key).setKW ⟨false, s.KW.x⟩).adv 2
  | none => s

/-! ## TICK, RESET, LOAD -/

/-- `if T > 0: T <- T - 1` (R229). -/
def countDown (t : Byte) : Byte := if t = 0 then t else t - 1

/-- TICK: both timers count down, nothing else changes (R229, R230). -/
def State.tick (s : State) : State := (s.setDT (countDown s.DT)).setST (countDown s.ST)

/-- RESET: every part of the engine's state gets its R35 value (R250); the inputs are not engine state (R33). -/
def State.resetEngine (s : State) : State := { s with toEngine := Engine.reset }

/-- What LOAD returns: an image longer than MAX_IMAGE is refused whole (R253, R254). -/
def loadResult (image : List Byte) : LoadResult := if maxImage < image.length then .imageTooLarge else .loaded

/-- LOAD: the image goes to memory at 0x200 onward and nothing else changes; a refused image writes nothing (R253,
R254). -/
def State.loadImage (s : State) (image : List Byte) : State :=
  match loadResult image with
  | .loaded => s.setMem (Memory.writeBytes s.mem progBase image)
  | .imageTooLarge => s

/-! ## Outputs -/

/-- STATUS of a STEP's outcome (R38, R85, R222); nothing for a refusal, which no spec status stands for. -/
def statusOf : Host.Outcome State Fault Refusal → Option Status
  | .next t => some (if t.KW.valid then .awaitingKey else .ok)
  | .fault (.stackOverflow op pc) => some (.stackOverflow op pc)
  | .fault (.stackUnderflow op pc) => some (.stackUnderflow op pc)
  | .refused _ => none

/-- The STATUS code (R38). -/
def statusCode : Status → Nat
  | .ok => 0
  | .awaitingKey => 1
  | .stackOverflow _ _ => 2
  | .stackUnderflow _ _ => 3

/-- The display read port: the value of a cell, for the coordinates of the grid (R42). -/
def State.displayPort (s : State) (x : Fin 64) (y : Fin 32) : Bool := s.disp.cell x y

/-- The state read port: the whole aggregate (R43). -/
def State.statePort (s : State) : Engine := s.toEngine

end Sys2Proof.Machine
end

