-- ==== Sys2Proof/Machine/Flags.lean ====
section
/-! DEFINITION. VF as the flag (R22): the five computations of R146 to R150 and the write order of R257. The collision
flag of DRW is computed with the drawing (Machine/Surface.lean). -/

namespace Sys2Proof.Machine

/-- VF, "the 16th general register". -/
def regVF : Nibble := 0xF

/-- A flag's value in VF: 1 or 0. -/
def flagByte (f : Bool) : Byte := if f then 1 else 0

/-- ADD: the exact sum is above 255 (R146). -/
def carryFlag (vx vy : Byte) : Bool := decide (vx.toNat + vy.toNat > 255)
/-- SUB and SUBN: the minuend is strictly greater (R147, R149; C1). -/
def greaterFlag (minuend subtrahend : Byte) : Bool := decide (minuend.toNat > subtrahend.toNat)
/-- SHR: bit 0 before the shift (R148). -/
def shiftedOutRight (vx : Byte) : Bool := vx.getLsbD 0
/-- SHL: bit 7 before the shift (R150). -/
def shiftedOutLeft (vx : Byte) : Bool := vx.getLsbD 7

/-- `V[0xF] <- f`. -/
def State.setFlag (s : State) (f : Bool) : State := s.setReg regVF (flagByte f)

/-- A data result to Vx and then a flag to VF, the last write (R22, R257): where x = F, VF ends holding the flag. -/
def State.setRegThenFlag (s : State) (x : Nibble) (result : Byte) (f : Bool) : State :=
  (s.setReg x result).setFlag f

end Sys2Proof.Machine
end

