-- ==== Sys2Proof/Machine/Operands.lean ====
section
/-! DEFINITION. The operand forms: zero-extended literals, the index-relative address, and the V0..Vx range (R82,
R174, R175, R177). -/

namespace Sys2Proof.Machine

/-- `zext_16(nnn)` (R82). -/
def zextAddr (nnn : Addr) : Word := nnn.setWidth 16

/-- `zext_16(V[x])`. -/
def State.regWord (s : State) (x : Nibble) : Word := (s.reg x).setWidth 16

/-- The one data addressing mode: `I + k`, reduced modulo 4096 (R177). -/
def State.effAddr (s : State) (k : Nat) : Nat := (s.I.toNat + k) % 4096

/-- The register with a given number in `0..15`. -/
def regIdx (k : Nat) : Nibble := BitVec.ofNat 4 k

/-- The `n` bytes at `I`, `I + 1`, … in ascending order: a sprite's rows (R191). -/
def State.bytesAtI (s : State) (n : Nat) : List Byte := (List.range n).map fun k => s.read (s.effAddr k)

/-- Store `n` registers from V0 at `I`, `I + 1`, … (R174). -/
def State.storeRegs (s : State) (n : Nat) : State :=
  (List.range n).foldl (fun t k => t.write (s.effAddr k) (s.reg (regIdx k))) s

/-- Load `n` registers from V0 with the bytes at `I`, `I + 1`, … (R175). -/
def State.loadRegs (s : State) (n : Nat) : State :=
  (List.range n).foldl (fun t k => t.setReg (regIdx k) (s.read (s.effAddr k))) s

/-- `adv(4)` where the condition holds, else `adv(2)` (R86). -/
def State.skipIf (s : State) (cond : Bool) : State := if cond then s.adv 4 else s.adv 2

end Sys2Proof.Machine
end

