-- ==== Sys2Proof/Machine/Alu.lean ====
section
/-! DEFINITION. Register and arithmetic instructions (41_alu.md, R140 to R152): operands are read, the result is
computed exactly and narrowed to 8 bits, and a flag is written last. -/

namespace Sys2Proof.Machine

/-- LD Vx, kk (R140). -/
def execLdByte (x : Nibble) (kk : Byte) (s : State) : Host.Outcome State Fault Refusal :=
  .next ((s.setReg x kk).adv 2)

/-- ADD Vx, kk (R141): no flag. -/
def execAddByte (x : Nibble) (kk : Byte) (s : State) : Host.Outcome State Fault Refusal :=
  .next ((s.setReg x (s.reg x + kk)).adv 2)

/-- LD Vx, Vy (R142). -/
def execLdReg (x y : Nibble) (s : State) : Host.Outcome State Fault Refusal :=
  .next ((s.setReg x (s.reg y)).adv 2)

/-- OR Vx, Vy (R143). -/
def execOr (x y : Nibble) (s : State) : Host.Outcome State Fault Refusal :=
  .next ((s.setReg x (s.reg x ||| s.reg y)).adv 2)

/-- AND Vx, Vy (R144). -/
def execAnd (x y : Nibble) (s : State) : Host.Outcome State Fault Refusal :=
  .next ((s.setReg x (s.reg x &&& s.reg y)).adv 2)

/-- XOR Vx, Vy (R145). -/
def execXor (x y : Nibble) (s : State) : Host.Outcome State Fault Refusal :=
  .next ((s.setReg x (s.reg x ^^^ s.reg y)).adv 2)

/-- ADD Vx, Vy (R146). -/
def execAddReg (x y : Nibble) (s : State) : Host.Outcome State Fault Refusal :=
  .next ((s.setRegThenFlag x (s.reg x + s.reg y) (carryFlag (s.reg x) (s.reg y))).adv 2)

/-- SUB Vx, Vy (R147). -/
def execSub (x y : Nibble) (s : State) : Host.Outcome State Fault Refusal :=
  .next ((s.setRegThenFlag x (s.reg x - s.reg y) (greaterFlag (s.reg x) (s.reg y))).adv 2)

/-- SHR Vx (R148): the source is Vx, `y` is ignored (C4). -/
def execShr (x _y : Nibble) (s : State) : Host.Outcome State Fault Refusal :=
  .next ((s.setRegThenFlag x (s.reg x >>> 1) (shiftedOutRight (s.reg x))).adv 2)

/-- SUBN Vx, Vy (R149). -/
def execSubn (x y : Nibble) (s : State) : Host.Outcome State Fault Refusal :=
  .next ((s.setRegThenFlag x (s.reg y - s.reg x) (greaterFlag (s.reg y) (s.reg x))).adv 2)

/-- SHL Vx (R150): the source is Vx, `y` is ignored (C4). -/
def execShl (x _y : Nibble) (s : State) : Host.Outcome State Fault Refusal :=
  .next ((s.setRegThenFlag x (s.reg x <<< 1) (shiftedOutLeft (s.reg x))).adv 2)

/-- RND Vx, kk (R151): `rnd` is this step's sample. -/
def execRnd (x : Nibble) (kk : Byte) (s : State) : Host.Outcome State Fault Refusal :=
  .next ((s.setReg x (s.rnd &&& kk)).adv 2)

end Sys2Proof.Machine
end

