-- ==== Sys2Proof/Machine/ControlFlow.lean ====
section
/-! DEFINITION. Control flow (40_control_flow.md, R110 to R119). -/

namespace Sys2Proof.Machine

/-- SYS nnn (R110). -/
def execSys (_nnn : Addr) (s : State) : Host.Outcome State Fault Refusal := .next (s.adv 2)

/-- RET (R111): the fault check precedes every write (R222). -/
def execRet (ignC ignB : Nibble) (s : State) : Host.Outcome State Fault Refusal :=
  match s.pop? with
  | some (target, t) => .next (t.setPc target)
  | none => raise .stackUnderflow (encode (.ret ignC ignB)) s

/-- JP nnn (R112). -/
def execJp (nnn : Addr) (s : State) : Host.Outcome State Fault Refusal := .next (s.setPc (zextAddr nnn))

/-- CALL nnn (R113; the return address is pc + 2, C2). -/
def execCall (nnn : Addr) (s : State) : Host.Outcome State Fault Refusal :=
  match s.push? (s.pc + 2) with
  | some t => .next (t.setPc (zextAddr nnn))
  | none => raise .stackOverflow (encode (.call nnn)) s

/-- SE Vx, kk (R114). -/
def execSeByte (x : Nibble) (kk : Byte) (s : State) : Host.Outcome State Fault Refusal :=
  .next (s.skipIf (s.reg x == kk))

/-- SNE Vx, kk (R115). -/
def execSneByte (x : Nibble) (kk : Byte) (s : State) : Host.Outcome State Fault Refusal :=
  .next (s.skipIf (s.reg x != kk))

/-- SE Vx, Vy (R116). -/
def execSeReg (x y _ignN : Nibble) (s : State) : Host.Outcome State Fault Refusal :=
  .next (s.skipIf (s.reg x == s.reg y))

/-- SNE Vx, Vy (R117). -/
def execSneReg (x y _ignN : Nibble) (s : State) : Host.Outcome State Fault Refusal :=
  .next (s.skipIf (s.reg x != s.reg y))

/-- JP V0, nnn (R118): the 16-bit sum is not reduced modulo 4096. -/
def execJpV0 (nnn : Addr) (s : State) : Host.Outcome State Fault Refusal :=
  .next (s.setPc (zextAddr nnn + s.regWord 0x0))

end Sys2Proof.Machine
end

