-- ==== Sys2Proof/Machine/Display.lean ====
section
/-! DEFINITION. Display instructions (43_display.md, R190 to R193). -/

namespace Sys2Proof.Machine

/-- CLS (R190). -/
def execCls (_ignC _ignB : Nibble) (s : State) : Host.Outcome State Fault Refusal :=
  .next ((s.setDisp Disp.blank).adv 2)

/-- DRW Vx, Vy, n (R191): the coordinates are read before VF is written; VF receives the collision over the whole
sprite, the last write (R193). -/
def execDrw (x y n : Nibble) (s : State) : Host.Outcome State Fault Refusal :=
  let drawn := Disp.drawRows (s.bytesAtI n.toNat) (s.reg x).toNat (s.reg y).toNat (s.disp, false)
  .next (((s.setDisp drawn.1).setFlag drawn.2).adv 2)

end Sys2Proof.Machine
end

