-- ==== Sys2Proof/Machine/IndexMemory.lean ====
section
/-! DEFINITION. Index register and memory transfer instructions (42_index_memory.md, R170 to R177). FX55 and FX65 leave
I unchanged (R176). -/

namespace Sys2Proof.Machine

/-- LD I, nnn (R170). -/
def execLdI (nnn : Addr) (s : State) : Host.Outcome State Fault Refusal := .next ((s.setI (zextAddr nnn)).adv 2)

/-- ADD I, Vx (R171): modulo 65536, VF is not written. -/
def execAddI (x : Nibble) (s : State) : Host.Outcome State Fault Refusal :=
  .next ((s.setI (s.I + s.regWord x)).adv 2)

/-- LD F, Vx (R172): `5 * V[x]`, not masked. -/
def execLdF (x : Nibble) (s : State) : Host.Outcome State Fault Refusal :=
  .next ((s.setI (5 * s.regWord x)).adv 2)

/-- The decimal digits of a byte, as FX33 stores them (R173). -/
def bcdHundreds (v : Byte) : Byte := BitVec.ofNat 8 (v.toNat / 100)
/-- See bcdHundreds. -/
def bcdTens (v : Byte) : Byte := BitVec.ofNat 8 (v.toNat / 10 % 10)
/-- See bcdHundreds. -/
def bcdOnes (v : Byte) : Byte := BitVec.ofNat 8 (v.toNat % 10)

/-- LD B, Vx (R173): hundreds, tens and ones at I, I+1 and I+2. -/
def execLdB (x : Nibble) (s : State) : Host.Outcome State Fault Refusal :=
  .next ((((s.write (s.effAddr 0) (bcdHundreds (s.reg x))).write (s.effAddr 1) (bcdTens (s.reg x))).write
    (s.effAddr 2) (bcdOnes (s.reg x))).adv 2)

/-- LD [I], Vx (R174): V0 to Vx inclusive. -/
def execLdMemVx (x : Nibble) (s : State) : Host.Outcome State Fault Refusal :=
  .next ((s.storeRegs (x.toNat + 1)).adv 2)

/-- LD Vx, [I] (R175): V0 to Vx inclusive. -/
def execLdVxMem (x : Nibble) (s : State) : Host.Outcome State Fault Refusal :=
  .next ((s.loadRegs (x.toNat + 1)).adv 2)

end Sys2Proof.Machine
end

