-- ==== Sys2Proof/Machine/TimersKeypad.lean ====
section
/-! DEFINITION. Timer and keypad instructions (44_timers_keypad.md, R200 to R208). The resume transition of R204 is
State.resumeKeyWait (Machine/Ops.lean). -/

namespace Sys2Proof.Machine

/-- SKP Vx (R200): a value of 16 or more names no key (R208). -/
def execSkp (x _ignB : Nibble) (s : State) : Host.Outcome State Fault Refusal :=
  .next (s.skipIf (s.keyDown (s.reg x).toNat))

/-- SKNP Vx (R201). -/
def execSknp (x _ignB : Nibble) (s : State) : Host.Outcome State Fault Refusal :=
  .next (s.skipIf (!s.keyDown (s.reg x).toNat))

/-- LD Vx, DT (R202). -/
def execLdVxDT (x : Nibble) (s : State) : Host.Outcome State Fault Refusal := .next ((s.setReg x s.DT).adv 2)

/-- LD Vx, K (R203): a key already down completes it at once; else the engine enters the key wait and PC stays. -/
def execLdVxK (x : Nibble) (s : State) : Host.Outcome State Fault Refusal :=
  .next (match s.chosenKey? with
    | some key => (s.setReg x key).adv 2
    | none => s.setKW ⟨true, x⟩)

/-- LD DT, Vx (R205). -/
def execLdDTVx (x : Nibble) (s : State) : Host.Outcome State Fault Refusal := .next ((s.setDT (s.reg x)).adv 2)

/-- LD ST, Vx (R206). -/
def execLdSTVx (x : Nibble) (s : State) : Host.Outcome State Fault Refusal := .next ((s.setST (s.reg x)).adv 2)

end Sys2Proof.Machine
end

