-- ==== Sys2Proof/Machine/Unassigned.lean ====
section
/-! DEFINITION. The UNASSIGNED words (R93): each does nothing but advance PC by 2. -/

namespace Sys2Proof.Machine

/-- The effect R93 gives every UNASSIGNED word. -/
def unassignedEffect (s : State) : Host.Outcome State Fault Refusal := .next (s.adv 2)

/-- 8xy8 (R89, R93). -/
def execUnassigned88 (_ignX _ignY : Nibble) (s : State) : Host.Outcome State Fault Refusal := unassignedEffect s

/-- 8xy9 (R89, R93). -/
def execUnassigned89 (_ignX _ignY : Nibble) (s : State) : Host.Outcome State Fault Refusal := unassignedEffect s

/-- 8xyA (R89, R93). -/
def execUnassigned8A (_ignX _ignY : Nibble) (s : State) : Host.Outcome State Fault Refusal := unassignedEffect s

/-- 8xyB (R89, R93). -/
def execUnassigned8B (_ignX _ignY : Nibble) (s : State) : Host.Outcome State Fault Refusal := unassignedEffect s

/-- 8xyC (R89, R93). -/
def execUnassigned8C (_ignX _ignY : Nibble) (s : State) : Host.Outcome State Fault Refusal := unassignedEffect s

/-- 8xyD (R89, R93). -/
def execUnassigned8D (_ignX _ignY : Nibble) (s : State) : Host.Outcome State Fault Refusal := unassignedEffect s

/-- 8xyF (R89, R93). -/
def execUnassigned8F (_ignX _ignY : Nibble) (s : State) : Host.Outcome State Fault Refusal := unassignedEffect s

/-- Exba with `a` neither 0xE nor 0x1 (R90, R93). -/
def execUnassignedE (_ignX _ignB _a : Nibble) (s : State) : Host.Outcome State Fault Refusal := unassignedEffect s

/-- Fxkk with `kk` none of R91's nine (R91, R93). -/
def execUnassignedF (_ignX : Nibble) (_kk : Byte) (s : State) : Host.Outcome State Fault Refusal := unassignedEffect s

end Sys2Proof.Machine
end

