-- ==== Sys2Proof/Machine/Dispatch.lean ====
section
/-! DEFINITION. One arm per instruction: its meaning (R85's Execute). -/

namespace Sys2Proof.Machine

def exec (i : Instr) (s : State) : Host.Outcome State Fault Refusal :=
  match i with
  | .cls c b => Sys2Proof.Machine.execCls c b s
  | .ret c b => Sys2Proof.Machine.execRet c b s
  | .sys nnn => Sys2Proof.Machine.execSys nnn s
  | .jp nnn => Sys2Proof.Machine.execJp nnn s
  | .call nnn => Sys2Proof.Machine.execCall nnn s
  | .seByte x kk => Sys2Proof.Machine.execSeByte x kk s
  | .sneByte x kk => Sys2Proof.Machine.execSneByte x kk s
  | .seReg x y n => Sys2Proof.Machine.execSeReg x y n s
  | .ldByte x kk => Sys2Proof.Machine.execLdByte x kk s
  | .addByte x kk => Sys2Proof.Machine.execAddByte x kk s
  | .ldReg x y => Sys2Proof.Machine.execLdReg x y s
  | .or x y => Sys2Proof.Machine.execOr x y s
  | .and x y => Sys2Proof.Machine.execAnd x y s
  | .xor x y => Sys2Proof.Machine.execXor x y s
  | .addReg x y => Sys2Proof.Machine.execAddReg x y s
  | .sub x y => Sys2Proof.Machine.execSub x y s
  | .shr x y => Sys2Proof.Machine.execShr x y s
  | .subn x y => Sys2Proof.Machine.execSubn x y s
  | .shl x y => Sys2Proof.Machine.execShl x y s
  | .unassigned88 x y => Sys2Proof.Machine.execUnassigned88 x y s
  | .unassigned89 x y => Sys2Proof.Machine.execUnassigned89 x y s
  | .unassigned8A x y => Sys2Proof.Machine.execUnassigned8A x y s
  | .unassigned8B x y => Sys2Proof.Machine.execUnassigned8B x y s
  | .unassigned8C x y => Sys2Proof.Machine.execUnassigned8C x y s
  | .unassigned8D x y => Sys2Proof.Machine.execUnassigned8D x y s
  | .unassigned8F x y => Sys2Proof.Machine.execUnassigned8F x y s
  | .sneReg x y n => Sys2Proof.Machine.execSneReg x y n s
  | .ldI nnn => Sys2Proof.Machine.execLdI nnn s
  | .jpV0 nnn => Sys2Proof.Machine.execJpV0 nnn s
  | .rnd x kk => Sys2Proof.Machine.execRnd x kk s
  | .drw x y n => Sys2Proof.Machine.execDrw x y n s
  | .skp x b => Sys2Proof.Machine.execSkp x b s
  | .sknp x b => Sys2Proof.Machine.execSknp x b s
  | .unassignedE x b a => Sys2Proof.Machine.execUnassignedE x b a s
  | .ldVxDT x => Sys2Proof.Machine.execLdVxDT x s
  | .ldVxK x => Sys2Proof.Machine.execLdVxK x s
  | .ldDTVx x => Sys2Proof.Machine.execLdDTVx x s
  | .ldSTVx x => Sys2Proof.Machine.execLdSTVx x s
  | .addI x => Sys2Proof.Machine.execAddI x s
  | .ldF x => Sys2Proof.Machine.execLdF x s
  | .ldB x => Sys2Proof.Machine.execLdB x s
  | .ldMemVx x => Sys2Proof.Machine.execLdMemVx x s
  | .ldVxMem x => Sys2Proof.Machine.execLdVxMem x s
  | .unassignedF x kk => Sys2Proof.Machine.execUnassignedF x kk s

end Sys2Proof.Machine
end

