-- ==== Sys2Proof/Machine/Operations.lean ====
section
/-! DEFINITION. The engine's four operations (R36): STEP's pipeline (R85) and the choice among them. -/

namespace Sys2Proof.Machine

/-- STEP(KEYS, RND) (R85): sample the inputs once; resume a pending key wait, or else fetch, decode and execute. -/
def stepOp (keys : Word) (rnd : Byte) (s : State) : Host.Outcome State Fault Refusal :=
  let t := s.sample keys rnd
  if t.KW.valid then .next t.resumeKeyWait else exec (decode t.fetch) t

/-- Perform one operation of the driver (R36 to R41). -/
def perform (op : DriverOp) (s : State) : Host.Outcome State Fault Refusal :=
  match op with
  | .step keys rnd => stepOp keys rnd s
  | .tick => .next s.tick
  | .reset => .next s.resetEngine
  | .load image => .next (s.loadImage image)

/-- `s` with a word's two bytes in memory at PC, high byte first (R53), no key wait pending, and a STEP with the samples
`s` already holds in front of the driver's schedule: what the very next step needs to run that word. Log 10. -/
def State.placeWord (s : State) (word : Word) : State :=
  { (s.write s.pc.toNat (highByte word)).write (s.pc.toNat + 1) (lowByte word) with
    KW := ⟨false, s.KW.x⟩
    pending := .step s.keys s.rnd :: s.pending }

end Sys2Proof.Machine
end

