-- ==== Sys2Proof/Machine/Step.lean ====
section
/-! DEFINITION. One step of the machine: the driver's next operation, performed whole (R36, R67). -/

namespace Sys2Proof.Machine

/-- The driver's next operation, performed. Where that is a STEP with no key wait pending, it is one
fetch-decode-execute cycle (R85). -/
def step (s : State) : Host.Outcome State Fault Refusal := perform s.takeOp.1 s.takeOp.2

/-- `s` with the instruction whose bits are `w` where step fetches its next instruction. -/
def State.withFetchWord (s : State) (nbits w : Nat) : State := s.placeWord (BitVec.ofNat 16 (w % 2 ^ nbits))

end Sys2Proof.Machine
end

