-- ==== Sys2Proof/Safety.lean ====
section
/-! DEFINITION. The terms the statements are made in: the legal states, a safe step, the parts of the state and what it
means that only some of them changed, the PC each instruction leaves, and the cells a sprite covers. -/

namespace Sys2Proof.Machine

/-- The states the spec's machine can be in: memory in canonical form (equal memories are equal data), and a call stack
of at most STACK_DEPTH entries (R26). Every other bound of R3 is in the types. -/
abbrev State.Inv (s : State) : Prop := Memory.wf s.mem = true ∧ s.stack.length ≤ stackDepth

/-- A safe step: the operation faults neither (R220) nor is refused. -/
def Safe (s : State) : Prop := ∃ t, step s = .next t

/-- The program's duty of R261 at one instruction: no CALL on a full stack, no RET on an empty one. -/
def CallDuty (i : Instr) (s : State) : Prop :=
  (∀ nnn, i = .call nnn → s.stack.length < stackDepth) ∧ (∀ c b, i = .ret c b → s.stack ≠ [])

/-! ## Frames -/

/-- The parts of the engine's state (R20) but for PC. -/
inductive Part where
  | reg (x : Nibble)
  | I
  | DT
  | ST
  | stack
  | KW
  | byte (addr : Nat)
  | disp
deriving DecidableEq, Repr

/-- The part is the same in both states. A byte is one of the 4096 (R50). -/
def Unchanged (s t : State) : Part → Prop
  | .reg x => t.reg x = s.reg x
  | .I => t.I = s.I
  | .DT => t.DT = s.DT
  | .ST => t.ST = s.ST
  | .stack => t.stack = s.stack
  | .KW => t.KW = s.KW
  | .byte addr => addr < 4096 → t.read addr = s.read addr
  | .disp => t.disp = s.disp

/-- The frame: from `s` to `t` every part but the listed ones is unchanged, and so are the input samples and the
driver's side. PC may have changed. -/
def ChangesOnly (s t : State) (parts : List Part) : Prop :=
  (∀ p, p ∉ parts → Unchanged s t p) ∧ t.keys = s.keys ∧ t.rnd = s.rnd ∧ t.pending = s.pending ∧ t.draws = s.draws

/-- The bytes at `I`, …, `I + (n - 1)`, by the address function the meanings use (R177). -/
def bytesFromI (s : State) (n : Nat) : List Part := (List.range n).map fun k => .byte (s.effAddr k)

/-! ## PC after an instruction -/

/-- The PC an instruction leaves, by R86's four classes: advance, skip, direct, wait. -/
def pcAfter (i : Instr) (s : State) : Word :=
  match i with
  | .ret _ _ => s.stack.getLast?.getD s.pc
  | .jp nnn => BitVec.ofNat 16 nnn.toNat
  | .call nnn => BitVec.ofNat 16 nnn.toNat
  | .jpV0 nnn => BitVec.ofNat 16 (nnn.toNat + (s.reg 0).toNat)
  | .seByte x kk => if s.reg x = kk then s.pc + 4 else s.pc + 2
  | .sneByte x kk => if s.reg x = kk then s.pc + 2 else s.pc + 4
  | .seReg x y _ => if s.reg x = s.reg y then s.pc + 4 else s.pc + 2
  | .sneReg x y _ => if s.reg x = s.reg y then s.pc + 2 else s.pc + 4
  | .skp x _ => if (s.reg x).toNat ≤ 15 ∧ s.keys.getLsbD (s.reg x).toNat = true then s.pc + 4 else s.pc + 2
  | .sknp x _ => if (s.reg x).toNat ≤ 15 ∧ s.keys.getLsbD (s.reg x).toNat = true then s.pc + 2 else s.pc + 4
  | .ldVxK _ => if s.keys = 0 then s.pc else s.pc + 2
  | .sys _ => s.pc + 2
  | .cls _ _ => s.pc + 2
  | .ldByte _ _ => s.pc + 2
  | .addByte _ _ => s.pc + 2
  | .ldReg _ _ => s.pc + 2
  | .or _ _ => s.pc + 2
  | .and _ _ => s.pc + 2
  | .xor _ _ => s.pc + 2
  | .addReg _ _ => s.pc + 2
  | .sub _ _ => s.pc + 2
  | .shr _ _ => s.pc + 2
  | .subn _ _ => s.pc + 2
  | .shl _ _ => s.pc + 2
  | .unassigned88 _ _ => s.pc + 2
  | .unassigned89 _ _ => s.pc + 2
  | .unassigned8A _ _ => s.pc + 2
  | .unassigned8B _ _ => s.pc + 2
  | .unassigned8C _ _ => s.pc + 2
  | .unassigned8D _ _ => s.pc + 2
  | .unassigned8F _ _ => s.pc + 2
  | .ldI _ => s.pc + 2
  | .rnd _ _ => s.pc + 2
  | .drw _ _ _ => s.pc + 2
  | .unassignedE _ _ _ => s.pc + 2
  | .ldVxDT _ => s.pc + 2
  | .ldDTVx _ => s.pc + 2
  | .ldSTVx _ => s.pc + 2
  | .addI _ => s.pc + 2
  | .ldF _ => s.pc + 2
  | .ldB _ => s.pc + 2
  | .ldMemVx _ => s.pc + 2
  | .ldVxMem _ => s.pc + 2
  | .unassignedF _ _ => s.pc + 2

/-! ## Sprites -/

/-- The cells DRW's sprite covers: row `j`, column `k`, where bit `7 - k` of the byte at `I + j` is set, at
`(Vx + k, Vy + j)` wrapped (R191, R192). -/
def SpriteCovers (s : State) (x y n : Nibble) (cx cy : Nat) : Prop :=
  ∃ j k, j < n.toNat ∧ k < 8 ∧ (s.read (s.effAddr j)).getLsbD (7 - k) = true ∧
    ((s.reg x).toNat + k) % 64 = cx ∧ ((s.reg y).toNat + j) % 32 = cy

/-- Key `k` is the lowest-numbered pressed key of a snapshot (R207). -/
def LowestKey (keys : Word) (k : Nat) : Prop :=
  k < 16 ∧ keys.getLsbD k = true ∧ ∀ j, j < k → keys.getLsbD j = false

/-! ## Flag instructions -/

/-- The instructions that write VF as a flag (R22). -/
def SetsFlag : Instr → Prop
  | .addReg _ _ => True
  | .sub _ _ => True
  | .shr _ _ => True
  | .subn _ _ => True
  | .shl _ _ => True
  | .drw _ _ _ => True
  | _ => False

/-- The instructions that may write VF as data: those whose destination register is VF. -/
def WritesVFAsData : Instr → Prop
  | .ldByte x _ => x = 0xF
  | .addByte x _ => x = 0xF
  | .ldReg x _ => x = 0xF
  | .or x _ => x = 0xF
  | .and x _ => x = 0xF
  | .xor x _ => x = 0xF
  | .rnd x _ => x = 0xF
  | .ldVxDT x => x = 0xF
  | .ldVxK x => x = 0xF
  | .ldVxMem x => x = 0xF
  | _ => False

/-- The instructions that read an input port: CXKK reads RND; EX9E, EXA1 and FX0A read KEYS (R33, R34, R51). -/
def ReadsInputs : Instr → Prop
  | .rnd _ _ => True
  | .skp _ _ => True
  | .sknp _ _ => True
  | .ldVxK _ => True
  | _ => False

end Sys2Proof.Machine
end

