-- ==== Sys2Proof/Certificates/Slice0/Obligations.lean ====
section
/-! DEFINITION. The statements for the provers. Each docstring names the rule of spec/ it formalises; where a rule's
clause is marked there as a decision, a derivation or general knowledge, the statement is listed as derived. -/

open Sys2Proof Sys2Proof.Machine

/-! ## Encoding -/

/-- Words written out from the patterns of R97 decode to the instructions they stand for, at least one per family, with
distinct nibbles so that no two fields can be swapped. -/
def Obligations.SpecWordsDecodeAsWritten : Prop :=
  decode 0x00E0 = .cls 0x0 0xE ∧ decode 0x00EE = .ret 0x0 0xE ∧ decode 0x0123 = .sys 0x123 ∧
  decode 0x1234 = .jp 0x234 ∧ decode 0x2345 = .call 0x345 ∧ decode 0x3A42 = .seByte 0xA 0x42 ∧
  decode 0x4B31 = .sneByte 0xB 0x31 ∧ decode 0x5120 = .seReg 0x1 0x2 0x0 ∧ decode 0x6C05 = .ldByte 0xC 0x05 ∧
  decode 0x7D0A = .addByte 0xD 0x0A ∧ decode 0x8124 = .addReg 0x1 0x2 ∧ decode 0x812E = .shl 0x1 0x2 ∧
  decode 0x8128 = .unassigned88 0x1 0x2 ∧ decode 0x9120 = .sneReg 0x1 0x2 0x0 ∧ decode 0xA2F0 = .ldI 0x2F0 ∧
  decode 0xB300 = .jpV0 0x300 ∧ decode 0xC30F = .rnd 0x3 0x0F ∧ decode 0xD125 = .drw 0x1 0x2 0x5 ∧
  decode 0xE29E = .skp 0x2 0x9 ∧ decode 0xE2A1 = .sknp 0x2 0xA ∧ decode 0xF30A = .ldVxK 0x3 ∧
  decode 0xF533 = .ldB 0x5 ∧ decode 0xF0FF = .unassignedF 0x0 0xFF

/-- Decoding the word of a well-formed instruction gives the instruction back, with every operand at every value; the
same through the two bytes, whatever follows them (R80, R81, R82, R87 to R93). -/
def Obligations.DecodeOfEncodeIsIdentity : Prop :=
  ∀ i : Instr, i.wellFormed = true →
    decode (encode i) = i ∧ ∀ rest, decodeBytes (encodeBytes i ++ rest) = .ok (i, rest)

/-- Every one of the 65536 words decodes to a well-formed instruction whose word it is: nothing is rejected and no word
loses a bit (R83, R94). -/
def Obligations.EveryWordDecodesAndReencodes : Prop :=
  ∀ w : Word, (decode w).wellFormed = true ∧ encode (decode w) = w

/-- The decoder agrees with the machine-readable opcode table: for every word exactly one row wins by mask, match and
priority, and it is the row of the constructor the decoder gives (R99). -/
def Obligations.DecodeFollowsOpcodeTable : Prop :=
  ∀ w : Word, tableWinners w = [(decode w).row]

/-- The alias words of R95 decode to the instruction of their canonical spelling with other ignored nibbles, and run to
the same next state as the canonical word. The reading is the spec's decision D24 (log 8). -/
def Obligations.AliasWordsRunAsCanonicalOnes : Prop :=
  ∀ (x y z : Nibble) (s t : State),
    (exec (decode 0x00E0) s = .next t → exec (decode (ofNibbles 0x0 x y 0x0)) s = .next t) ∧
    (exec (decode 0x00EE) s = .next t → exec (decode (ofNibbles 0x0 x y 0xE)) s = .next t) ∧
    (exec (decode (ofNibbles 0x5 x y 0x0)) s = .next t → exec (decode (ofNibbles 0x5 x y z)) s = .next t) ∧
    (exec (decode (ofNibbles 0x9 x y 0x0)) s = .next t → exec (decode (ofNibbles 0x9 x y z)) s = .next t) ∧
    (exec (decode (ofNibbles 0xE x 0x9 0xE)) s = .next t → exec (decode (ofNibbles 0xE x y 0xE)) s = .next t) ∧
    (exec (decode (ofNibbles 0xE x 0xA 0x1)) s = .next t → exec (decode (ofNibbles 0xE x y 0x1)) s = .next t)

/-! ## Fetch and step -/

/-- R84: the high byte of the word is at PC and the low byte at PC+1, each address reduced modulo 4096. -/
def Obligations.FetchReadsHighByteFirst : Prop :=
  ∀ s : State, s.fetch.toNat = 256 * (s.read (s.pc.toNat % 4096)).toNat + (s.read ((s.pc.toNat + 1) % 4096)).toNat

/-- When the two bytes at PC are the word of a well-formed instruction and no key wait is pending, a STEP of the
driver's schedule is exec of that instruction on the state with the STEP's samples; with an empty schedule it is exec on
the state with the next free samples (R85; the schedule is the model's, log 2 and log 3). -/
def Obligations.StepRunsTheInstructionAtPc : Prop :=
  ∀ (i : Instr) (s : State), i.wellFormed = true → s.KW.valid = false →
    s.read s.pc.toNat = highByte (encode i) → s.read (s.pc.toNat + 1) = lowByte (encode i) →
    (∀ keys rnd rest, s.pending = .step keys rnd :: rest →
      step s = exec i { s with pending := rest, keys := keys, rnd := rnd }) ∧
    (s.pending = [] →
      step s = exec i { s with draws := s.draws + 1, keys := Config.keysAt s.draws, rnd := Config.rndAt s.draws })

/-- R204, R85: while KW is valid a STEP fetches nothing. With a key pressed, the lowest one (decision D6, R207) goes to
V[KW.x], KW.valid is cleared, KW.x stays, PC advances by 2 and nothing else changes. With no key pressed nothing of the
engine is written and STATUS is AWAITING_KEY. -/
def Obligations.StepResumesPendingKeyWait : Prop :=
  ∀ (s : State) (keys : Word) (rnd : Byte) (rest : List DriverOp),
    s.KW.valid = true → s.pending = .step keys rnd :: rest →
    (∀ k, LowestKey keys k → ∃ t, step s = .next t ∧ (t.reg s.KW.x).toNat = k ∧ t.KW = ⟨false, s.KW.x⟩ ∧
      t.pc = s.pc + 2 ∧ statusOf (step s) = some .ok ∧
      ChangesOnly { s with pending := rest, keys := keys, rnd := rnd } t [.reg s.KW.x, .KW]) ∧
    (keys = 0 → step s = .next { s with pending := rest, keys := keys, rnd := rnd } ∧
      statusOf (step s) = some .awaitingKey)

/-- R38, R85: a completed STEP reports AWAITING_KEY exactly where no key is pressed and the engine was already waiting
or the instruction at PC is FX0A; else it reports OK. -/
def Obligations.StepStatusTellsTheKeyWait : Prop :=
  ∀ (s t : State) (keys : Word) (rnd : Byte), stepOp keys rnd s = .next t →
    (statusOf (stepOp keys rnd s) = some .awaitingKey ↔
      keys = 0 ∧ (s.KW.valid = true ∨ ∃ x, decode s.fetch = .ldVxK x)) ∧
    (statusOf (stepOp keys rnd s) = some .awaitingKey ∨ statusOf (stepOp keys rnd s) = some .ok)

/-! ## TICK, RESET, LOAD -/

/-- R229: TICK decrements DT and ST by 1 each, but never below 0, and writes nothing else. -/
def Obligations.TickCountsBothTimersDown : Prop :=
  ∀ (s : State) (rest : List DriverOp), s.pending = .tick :: rest →
    ∃ t, step s = .next t ∧ t.DT.toNat = s.DT.toNat - 1 ∧ t.ST.toNat = s.ST.toNat - 1 ∧ t.pc = s.pc ∧
      ChangesOnly { s with pending := rest } t [.DT, .ST]

/-- R229 and JC8's timer floor law (W8): any number of consecutive TICKs takes each timer down by that number, stopping
at 0, and leaves a pending key wait pending (R230). -/
def Obligations.RepeatedTicksStopAtZero : Prop :=
  ∀ (n : Nat) (s : State) (rest : List DriverOp), s.pending = List.replicate n .tick ++ rest →
    ∃ t, Host.Core.run Sys2Proof.core n s = .next t ∧ t.DT.toNat = s.DT.toNat - n ∧ t.ST.toNat = s.ST.toNat - n ∧
      t.KW = s.KW ∧ t.pc = s.pc ∧ t.pending = rest

/-- R250 and the table of R35: RESET sets every part of the engine's state. The cleared KW is the spec's decision D21
and the font bytes are the parameter `font` (log 4); the input samples and the rest of the schedule stay. -/
def Obligations.ResetSetsEveryPart : Prop :=
  ∀ (s : State) (rest : List DriverOp), s.pending = .reset :: rest →
    ∃ t, step s = .next t ∧ (∀ x, t.reg x = 0) ∧ t.I = 0 ∧ t.pc = 0x200 ∧ t.DT = 0 ∧ t.ST = 0 ∧ t.stack = [] ∧
      t.KW = ⟨false, 0⟩ ∧ (∀ a, a < 80 → some (t.read a) = font[a]?) ∧ (∀ a, 80 ≤ a → a < 4096 → t.read a = 0) ∧
      (∀ x y, t.disp.cell x y = false) ∧ t.keys = s.keys ∧ t.rnd = s.rnd ∧ t.pending = rest ∧ t.draws = s.draws

/-- R253, R254: LOAD writes an image of at most 3584 bytes at 0x200 onward and changes nothing else; a longer image is
refused whole. The size limit and the untouched rest are the spec's decision D15. -/
def Obligations.LoadWritesTheImageAndNothingElse : Prop :=
  ∀ (s : State) (image : List Byte) (rest : List DriverOp), s.pending = .load image :: rest →
    (image.length ≤ 3584 → loadResult image = .loaded ∧ ∃ t, step s = .next t ∧
      (∀ k b, image[k]? = some b → t.read (0x200 + k) = b) ∧
      (∀ a, a < 4096 → a < 0x200 ∨ 0x200 + image.length ≤ a → t.read a = s.read a) ∧
      (∀ p, (∀ a, p ≠ .byte a) → Unchanged s t p) ∧ t.pc = s.pc ∧ t.keys = s.keys ∧ t.rnd = s.rnd ∧
      t.pending = rest ∧ t.draws = s.draws) ∧
    (3584 < image.length → loadResult image = .imageTooLarge ∧ step s = .next { s with pending := rest })

/-! ## Control flow -/

/-- R110: SYS nnn does nothing but advance PC by 2 (the spec's decision D23). Which words of family 0 are SYS is its
decision D24 (R88). Both are log 8. -/
def Obligations.SysOnlyAdvances : Prop :=
  (∀ c b a : Nibble, a ≠ 0x0 → a ≠ 0xE → decode (ofNibbles 0x0 c b a) = .sys (addrOf c b a)) ∧
  ∀ (nnn : Addr) (s : State), ∃ t, exec (.sys nnn) s = .next t ∧ t.pc = s.pc + 2 ∧ ChangesOnly s t []

/-- R111: RET pops the top stack entry into PC, with no further advance; on an empty stack it faults. That the word 0cbE
is RET for every c and b is the spec's decision D24 (R88), and that the fault reports the opcode and its PC its decision
D3 (R222); both are log 8. -/
def Obligations.RetPopsIntoPc : Prop :=
  ∀ (c b : Nibble) (s : State), decode (ofNibbles 0x0 c b 0xE) = .ret c b ∧
    (∀ rest v, s.stack = rest ++ [v] → ∃ t, exec (.ret c b) s = .next t ∧ t.pc = v ∧ t.stack = rest ∧
      ChangesOnly s t [.stack]) ∧
    (s.stack = [] → exec (.ret c b) s = .fault (.stackUnderflow (ofNibbles 0x0 c b 0xE) s.pc))

/-- R112: JP nnn sets PC to nnn. -/
def Obligations.JpSetsPc : Prop :=
  ∀ (c b a : Nibble) (s : State), decode (ofNibbles 0x1 c b a) = .jp (addrOf c b a) ∧
    ∃ t, exec (.jp (addrOf c b a)) s = .next t ∧ t.pc.toNat = (addrOf c b a).toNat ∧ ChangesOnly s t []

/-- R113: CALL nnn pushes pc + 2 (modulo 65536) and sets PC to nnn; on a full stack it faults. The bound of 16 entries is
the spec's decision D2 (R26, log 7), and that the fault reports the opcode and its PC its decision D3 (R222, log 8). -/
def Obligations.CallPushesReturnAddress : Prop :=
  ∀ (c b a : Nibble) (s : State), decode (ofNibbles 0x2 c b a) = .call (addrOf c b a) ∧
    (s.stack.length < 16 → ∃ t, exec (.call (addrOf c b a)) s = .next t ∧ t.stack = s.stack ++ [s.pc + 2] ∧
      t.pc.toNat = (addrOf c b a).toNat ∧ ChangesOnly s t [.stack]) ∧
    (s.stack.length = 16 → exec (.call (addrOf c b a)) s = .fault (.stackOverflow (ofNibbles 0x2 c b a) s.pc))

/-- R114, R115: SE Vx, kk skips iff Vx equals kk, SNE Vx, kk iff it does not. -/
def Obligations.ByteSkipsCompareWithLiteral : Prop :=
  ∀ (x b a : Nibble) (s : State),
    decode (ofNibbles 0x3 x b a) = .seByte x (byteOf b a) ∧ decode (ofNibbles 0x4 x b a) = .sneByte x (byteOf b a) ∧
    (∃ t, exec (.seByte x (byteOf b a)) s = .next t ∧
      t.pc = (if s.reg x = byteOf b a then s.pc + 4 else s.pc + 2) ∧ ChangesOnly s t []) ∧
    (∃ t, exec (.sneByte x (byteOf b a)) s = .next t ∧
      t.pc = (if s.reg x = byteOf b a then s.pc + 2 else s.pc + 4) ∧ ChangesOnly s t [])

/-- R116, R117: SE Vx, Vy skips iff the registers are equal, SNE Vx, Vy iff they are not, for every value of the nibble
that is not examined. The operations are the spec's general knowledge, the ignored nibble its decision D24 (log 8). -/
def Obligations.RegisterSkipsCompareRegisters : Prop :=
  ∀ (x y n : Nibble) (s : State),
    decode (ofNibbles 0x5 x y n) = .seReg x y n ∧ decode (ofNibbles 0x9 x y n) = .sneReg x y n ∧
    (∃ t, exec (.seReg x y n) s = .next t ∧ t.pc = (if s.reg x = s.reg y then s.pc + 4 else s.pc + 2) ∧
      ChangesOnly s t []) ∧
    (∃ t, exec (.sneReg x y n) s = .next t ∧ t.pc = (if s.reg x = s.reg y then s.pc + 2 else s.pc + 4) ∧
      ChangesOnly s t [])

/-- R118: JP V0, nnn sets PC to nnn + V0, not reduced modulo 4096 (general knowledge and decision D12 of the spec). -/
def Obligations.JpV0AddsV0 : Prop :=
  ∀ (c b a : Nibble) (s : State), decode (ofNibbles 0xB c b a) = .jpV0 (addrOf c b a) ∧
    ∃ t, exec (.jpV0 (addrOf c b a)) s = .next t ∧ t.pc.toNat = (addrOf c b a).toNat + (s.reg 0x0).toNat ∧
      ChangesOnly s t []

/-- JC8's subroutine law (W6; R111, R113): after a CALL, a RET from any state with the stack the CALL left restores the
stack from before the CALL and puts PC two past the CALL. RET with any ignored nibbles is the spec's decision D24 (log 8). -/
def Obligations.RetReturnsAfterTheCall : Prop :=
  ∀ (nnn : Addr) (c b : Nibble) (s t u : State), exec (.call nnn) s = .next t → u.stack = t.stack →
    ∃ v, exec (.ret c b) u = .next v ∧ v.pc = s.pc + 2 ∧ v.stack = s.stack

/-! ## Registers and arithmetic -/

/-- R140: LD Vx, kk writes kk to Vx. -/
def Obligations.LdByteWritesLiteral : Prop :=
  ∀ (x b a : Nibble) (s : State), decode (ofNibbles 0x6 x b a) = .ldByte x (byteOf b a) ∧
    ∃ t, exec (.ldByte x (byteOf b a)) s = .next t ∧ t.reg x = byteOf b a ∧ t.pc = s.pc + 2 ∧ ChangesOnly s t [.reg x]

/-- R141: ADD Vx, kk adds kk to Vx modulo 256 and writes no flag. -/
def Obligations.AddByteWrapsWithoutFlag : Prop :=
  ∀ (x b a : Nibble) (s : State), decode (ofNibbles 0x7 x b a) = .addByte x (byteOf b a) ∧
    ∃ t, exec (.addByte x (byteOf b a)) s = .next t ∧
      (t.reg x).toNat = ((s.reg x).toNat + (byteOf b a).toNat) % 256 ∧ t.pc = s.pc + 2 ∧ ChangesOnly s t [.reg x]

/-- R142 to R145: LD, OR, AND and XOR Vx, Vy, bit by bit, with VF written only where x = F. The operations are the
spec's general knowledge, the untouched VF its decision D11 (log 8). -/
def Obligations.BitwiseFormsCombineRegisters : Prop :=
  ∀ (x y : Nibble) (s : State),
    decode (ofNibbles 0x8 x y 0x0) = .ldReg x y ∧ decode (ofNibbles 0x8 x y 0x1) = .or x y ∧
    decode (ofNibbles 0x8 x y 0x2) = .and x y ∧ decode (ofNibbles 0x8 x y 0x3) = .xor x y ∧
    (∃ t, exec (.ldReg x y) s = .next t ∧ t.reg x = s.reg y ∧ t.pc = s.pc + 2 ∧ ChangesOnly s t [.reg x]) ∧
    (∃ t, exec (.or x y) s = .next t ∧
      (∀ k, (t.reg x).getLsbD k = ((s.reg x).getLsbD k || (s.reg y).getLsbD k)) ∧ t.pc = s.pc + 2 ∧
      ChangesOnly s t [.reg x]) ∧
    (∃ t, exec (.and x y) s = .next t ∧
      (∀ k, (t.reg x).getLsbD k = ((s.reg x).getLsbD k && (s.reg y).getLsbD k)) ∧ t.pc = s.pc + 2 ∧
      ChangesOnly s t [.reg x]) ∧
    (∃ t, exec (.xor x y) s = .next t ∧
      (∀ k, (t.reg x).getLsbD k = ((s.reg x).getLsbD k ^^ (s.reg y).getLsbD k)) ∧ t.pc = s.pc + 2 ∧
      ChangesOnly s t [.reg x])

/-- R146: ADD Vx, Vy writes (Vx + Vy) mod 256 to Vx and the carry to VF, VF last. -/
def Obligations.AddRegisterSetsCarry : Prop :=
  ∀ (x y : Nibble) (s : State), decode (ofNibbles 0x8 x y 0x4) = .addReg x y ∧
    ∃ t, exec (.addReg x y) s = .next t ∧
      (x ≠ 0xF → (t.reg x).toNat = ((s.reg x).toNat + (s.reg y).toNat) % 256) ∧
      t.reg 0xF = (if (s.reg x).toNat + (s.reg y).toNat > 255 then 1 else 0) ∧ t.pc = s.pc + 2 ∧
      ChangesOnly s t [.reg x, .reg 0xF]

/-- R147, R149: SUB writes (Vx - Vy) mod 256 and VF = 1 iff Vx > Vy; SUBN writes (Vy - Vx) mod 256 and VF = 1 iff
Vy > Vx; both strictly, VF last. -/
def Obligations.SubtractionsSetStrictFlag : Prop :=
  ∀ (x y : Nibble) (s : State), decode (ofNibbles 0x8 x y 0x5) = .sub x y ∧ decode (ofNibbles 0x8 x y 0x7) = .subn x y ∧
    (∃ t, exec (.sub x y) s = .next t ∧
      (x ≠ 0xF → ((t.reg x).toNat : Int) = ((s.reg x).toNat - (s.reg y).toNat : Int) % 256) ∧
      t.reg 0xF = (if (s.reg x).toNat > (s.reg y).toNat then 1 else 0) ∧ t.pc = s.pc + 2 ∧
      ChangesOnly s t [.reg x, .reg 0xF]) ∧
    (∃ t, exec (.subn x y) s = .next t ∧
      (x ≠ 0xF → ((t.reg x).toNat : Int) = ((s.reg y).toNat - (s.reg x).toNat : Int) % 256) ∧
      t.reg 0xF = (if (s.reg y).toNat > (s.reg x).toNat then 1 else 0) ∧ t.pc = s.pc + 2 ∧
      ChangesOnly s t [.reg x, .reg 0xF])

/-- R148, R150: SHR and SHL shift Vx by one, Vy is not read, and VF is the bit shifted out, VF last. -/
def Obligations.ShiftsMoveOneBitIntoVF : Prop :=
  ∀ (x y : Nibble) (s : State), decode (ofNibbles 0x8 x y 0x6) = .shr x y ∧ decode (ofNibbles 0x8 x y 0xE) = .shl x y ∧
    (∃ t, exec (.shr x y) s = .next t ∧ (x ≠ 0xF → (t.reg x).toNat = (s.reg x).toNat / 2) ∧
      (t.reg 0xF).toNat = (s.reg x).toNat % 2 ∧ t.pc = s.pc + 2 ∧ ChangesOnly s t [.reg x, .reg 0xF]) ∧
    (∃ t, exec (.shl x y) s = .next t ∧ (x ≠ 0xF → (t.reg x).toNat = 2 * (s.reg x).toNat % 256) ∧
      (t.reg 0xF).toNat = (s.reg x).toNat / 128 ∧ t.pc = s.pc + 2 ∧ ChangesOnly s t [.reg x, .reg 0xF])

/-- R151: RND Vx, kk writes rnd & kk to Vx, for every sample rnd. CXKK is the spec's general knowledge and decision D8
(log 8). -/
def Obligations.RndMasksTheSample : Prop :=
  ∀ (x b a : Nibble) (s : State), decode (ofNibbles 0xC x b a) = .rnd x (byteOf b a) ∧
    ∃ t, exec (.rnd x (byteOf b a)) s = .next t ∧
      (∀ k, (t.reg x).getLsbD k = (s.rnd.getLsbD k && (byteOf b a).getLsbD k)) ∧ t.pc = s.pc + 2 ∧
      ChangesOnly s t [.reg x]

/-- R22: the flag and the data share VF. An instruction that is not one of the six flag instructions and whose
destination register is not VF leaves VF alone: for OR, AND and XOR that is the spec's decision D11, for ADD I its
decision D9 (both log 8). Each of the five arithmetic flag instructions with x = F completes with VF holding the flag
(R146 to R150), not the result; DRW completes for every operand with VF = 0 or 1 (R191). -/
def Obligations.VFEndsHoldingTheFlag : Prop :=
  (∀ (i : Instr) (s t : State), exec i s = .next t → ¬SetsFlag i → ¬WritesVFAsData i → t.reg 0xF = s.reg 0xF) ∧
  (∀ (y : Nibble) (s : State),
    (∃ t, exec (.addReg 0xF y) s = .next t ∧
      t.reg 0xF = if (s.reg 0xF).toNat + (s.reg y).toNat > 255 then 1 else 0) ∧
    (∃ t, exec (.sub 0xF y) s = .next t ∧ t.reg 0xF = if (s.reg 0xF).toNat > (s.reg y).toNat then 1 else 0) ∧
    (∃ t, exec (.subn 0xF y) s = .next t ∧ t.reg 0xF = if (s.reg y).toNat > (s.reg 0xF).toNat then 1 else 0) ∧
    (∃ t, exec (.shr 0xF y) s = .next t ∧ (t.reg 0xF).toNat = (s.reg 0xF).toNat % 2) ∧
    (∃ t, exec (.shl 0xF y) s = .next t ∧ (t.reg 0xF).toNat = (s.reg 0xF).toNat / 128)) ∧
  (∀ (x y n : Nibble) (s : State), ∃ t, exec (.drw x y n) s = .next t ∧ (t.reg 0xF = 0 ∨ t.reg 0xF = 1))

/-! ## Index register and memory -/

/-- R170: LD I, nnn writes nnn to I. -/
def Obligations.LdIWritesAddress : Prop :=
  ∀ (c b a : Nibble) (s : State), decode (ofNibbles 0xA c b a) = .ldI (addrOf c b a) ∧
    ∃ t, exec (.ldI (addrOf c b a)) s = .next t ∧ t.I.toNat = (addrOf c b a).toNat ∧ t.pc = s.pc + 2 ∧
      ChangesOnly s t [.I]

/-- R171: ADD I, Vx adds Vx to I modulo 65536 and does not write VF (general knowledge and decision D9 of the spec). -/
def Obligations.AddIWrapsAt65536 : Prop :=
  ∀ (x : Nibble) (s : State), decode (ofNibbles 0xF x 0x1 0xE) = .addI x ∧
    ∃ t, exec (.addI x) s = .next t ∧ t.I.toNat = (s.I.toNat + (s.reg x).toNat) % 65536 ∧ t.pc = s.pc + 2 ∧
      ChangesOnly s t [.I]

/-- R172: LD F, Vx writes 5 × Vx to I, for every value of Vx (for Vx above 15 it is the spec's decision D10). -/
def Obligations.LdFPointsAtGlyph : Prop :=
  ∀ (x : Nibble) (s : State), decode (ofNibbles 0xF x 0x2 0x9) = .ldF x ∧
    ∃ t, exec (.ldF x) s = .next t ∧ t.I.toNat = 5 * (s.reg x).toNat ∧ t.pc = s.pc + 2 ∧ ChangesOnly s t [.I]

/-- R173: LD B, Vx stores the three decimal digits of Vx at I, I+1 and I+2 modulo 4096, and no other byte. -/
def Obligations.LdBStoresDecimalDigits : Prop :=
  ∀ (x : Nibble) (s : State), decode (ofNibbles 0xF x 0x3 0x3) = .ldB x ∧
    ∃ t, exec (.ldB x) s = .next t ∧ (t.read (s.effAddr 0)).toNat = (s.reg x).toNat / 100 ∧
      (t.read (s.effAddr 1)).toNat = (s.reg x).toNat / 10 % 10 ∧ (t.read (s.effAddr 2)).toNat = (s.reg x).toNat % 10 ∧
      t.pc = s.pc + 2 ∧ ChangesOnly s t (bytesFromI s 3)

/-- R174: LD [I], Vx stores V0 to Vx at I to I + x modulo 4096, and no other byte; I is not changed. -/
def Obligations.StoreWritesV0ToVx : Prop :=
  ∀ (x : Nibble) (s : State), decode (ofNibbles 0xF x 0x5 0x5) = .ldMemVx x ∧
    ∃ t, exec (.ldMemVx x) s = .next t ∧ (∀ r : Nibble, r.toNat ≤ x.toNat → t.read (s.effAddr r.toNat) = s.reg r) ∧
      t.pc = s.pc + 2 ∧ ChangesOnly s t (bytesFromI s (x.toNat + 1))

/-- R175: LD Vx, [I] loads V0 to Vx from I to I + x modulo 4096, and no other register; I is not changed. -/
def Obligations.LoadReadsV0ToVx : Prop :=
  ∀ (x : Nibble) (s : State), decode (ofNibbles 0xF x 0x6 0x5) = .ldVxMem x ∧
    ∃ t, exec (.ldVxMem x) s = .next t ∧
      (∀ r : Nibble, t.reg r = if r.toNat ≤ x.toNat then s.read (s.effAddr r.toNat) else s.reg r) ∧
      t.pc = s.pc + 2 ∧ ChangesOnly s t ((List.range (x.toNat + 1)).map fun k => .reg (BitVec.ofNat 4 k))

/-- R66 (decision D19 of the spec): the word two registers store where the next instruction is fetched is the word that
fetch gives. -/
def Obligations.StoredWordIsFetchedNext : Prop :=
  ∀ (x : Nibble) (k : Nat) (s t : State), k + 1 ≤ x.toNat → s.effAddr k = (s.pc.toNat + 2) % 4096 →
    exec (.ldMemVx x) s = .next t → t.fetch = wordOf (s.reg (BitVec.ofNat 4 k)) (s.reg (BitVec.ofNat 4 (k + 1)))

/-- The canonical form does its work: two memories in canonical form that read alike at every address are equal data
(the model's own form of R50, log 11). -/
def Obligations.MemoriesThatReadAlikeAreEqual : Prop :=
  ∀ m m' : Memory, Memory.wf m = true → Memory.wf m' = true → (∀ a, Memory.read m a = Memory.read m' a) → m = m'

/-! ## Display -/

/-- R190: CLS clears the display surface and writes nothing else. That the word 0cb0 is CLS for every c and b is the
spec's decision D24 (R88, R95; log 8). -/
def Obligations.ClsClearsTheSurface : Prop :=
  ∀ (c b : Nibble) (s : State), decode (ofNibbles 0x0 c b 0x0) = .cls c b ∧
    ∃ t, exec (.cls c b) s = .next t ∧ (∀ cx cy, t.disp.cell cx cy = false) ∧ t.pc = s.pc + 2 ∧
      ChangesOnly s t [.disp]

/-- R191, R192: after DRW a cell is on iff exactly one of these holds: it was on before, the sprite covers it. VF is 1
iff the sprite covers a cell that was on, else 0. Nothing else changes. The column order is the spec's decision D26 and
that no cell is toggled twice is its derivation. -/
def Obligations.DrwXorsTheSprite : Prop :=
  ∀ (x y n : Nibble) (s : State), decode (ofNibbles 0xD x y n) = .drw x y n ∧
    ∃ t, exec (.drw x y n) s = .next t ∧
      (∀ cx cy, cx < 64 → cy < 32 →
        (t.disp.cell cx cy = true ↔ ¬(s.disp.cell cx cy = true ↔ SpriteCovers s x y n cx cy))) ∧
      (t.reg 0xF = 1 ↔ ∃ cx cy, cx < 64 ∧ cy < 32 ∧ s.disp.cell cx cy = true ∧ SpriteCovers s x y n cx cy) ∧
      (t.reg 0xF = 0 ∨ t.reg 0xF = 1) ∧ t.pc = s.pc + 2 ∧ ChangesOnly s t [.disp, .reg 0xF]

/-- R193: the collision flag is computed over the whole sprite: VF is 1 iff some cell of the surface went from on to off
during the instruction, whichever row turned it off, else 0. -/
def Obligations.CollisionCoversTheWholeSprite : Prop :=
  ∀ (x y n : Nibble) (s t : State), exec (.drw x y n) s = .next t →
    (t.reg 0xF = 1 ↔ ∃ cx cy, s.disp.cell cx cy = true ∧ t.disp.cell cx cy = false) ∧
    (t.reg 0xF = 0 ↔ ∀ cx cy, s.disp.cell cx cy = true → t.disp.cell cx cy = true)

/-- JC8's collision law (W5; R191): drawing the same sprite twice at coordinates not held in VF restores the surface,
and the second draw reports a collision iff the first one turned some cell on. -/
def Obligations.DrawingTwiceRestoresTheSurface : Prop :=
  ∀ (x y n : Nibble) (s t u : State), x ≠ 0xF → y ≠ 0xF → exec (.drw x y n) s = .next t →
    exec (.drw x y n) t = .next u →
    u.disp = s.disp ∧ (u.reg 0xF = 1 ↔ ∃ cx cy, s.disp.cell cx cy = false ∧ t.disp.cell cx cy = true)

/-! ## Timers and keypad -/

/-- R200, R201, R208: SKP skips iff Vx is at most 15 and names a pressed key; SKNP skips iff not. The operations are the
spec's general knowledge, the reading of values above 15 its decision D7 and the ignored nibble its decision D24
(log 8). -/
def Obligations.KeySkipsTestTheSnapshot : Prop :=
  ∀ (x b : Nibble) (s : State), decode (ofNibbles 0xE x b 0xE) = .skp x b ∧ decode (ofNibbles 0xE x b 0x1) = .sknp x b ∧
    (∃ t, exec (.skp x b) s = .next t ∧ ChangesOnly s t [] ∧
      t.pc = if (s.reg x).toNat ≤ 15 ∧ s.keys.getLsbD (s.reg x).toNat = true then s.pc + 4 else s.pc + 2) ∧
    (∃ t, exec (.sknp x b) s = .next t ∧ ChangesOnly s t [] ∧
      t.pc = if (s.reg x).toNat ≤ 15 ∧ s.keys.getLsbD (s.reg x).toNat = true then s.pc + 2 else s.pc + 4)

/-- R202, R205, R206: LD Vx, DT; LD DT, Vx; LD ST, Vx copy the byte (general knowledge of the spec). -/
def Obligations.TimerTransfersCopyBytes : Prop :=
  ∀ (x : Nibble) (s : State), decode (ofNibbles 0xF x 0x0 0x7) = .ldVxDT x ∧
    decode (ofNibbles 0xF x 0x1 0x5) = .ldDTVx x ∧ decode (ofNibbles 0xF x 0x1 0x8) = .ldSTVx x ∧
    (∃ t, exec (.ldVxDT x) s = .next t ∧ t.reg x = s.DT ∧ t.pc = s.pc + 2 ∧ ChangesOnly s t [.reg x]) ∧
    (∃ t, exec (.ldDTVx x) s = .next t ∧ t.DT = s.reg x ∧ t.pc = s.pc + 2 ∧ ChangesOnly s t [.DT]) ∧
    (∃ t, exec (.ldSTVx x) s = .next t ∧ t.ST = s.reg x ∧ t.pc = s.pc + 2 ∧ ChangesOnly s t [.ST])

/-- R203, R207: LD Vx, K writes the lowest pressed key to Vx and advances; with no key pressed it sets KW to (1, x) and
PC does not move. Level and lowest key are the spec's decision D6 (log 8). -/
def Obligations.LdKTakesLowestKeyOrWaits : Prop :=
  ∀ (x : Nibble) (s : State), decode (ofNibbles 0xF x 0x0 0xA) = .ldVxK x ∧
    (∀ k, LowestKey s.keys k → ∃ t, exec (.ldVxK x) s = .next t ∧ (t.reg x).toNat = k ∧ t.pc = s.pc + 2 ∧
      ChangesOnly s t [.reg x]) ∧
    (s.keys = 0 → ∃ t, exec (.ldVxK x) s = .next t ∧ t.KW = ⟨true, x⟩ ∧ t.pc = s.pc ∧ ChangesOnly s t [.KW])

/-! ## UNASSIGNED -/

/-- R93, with R89 to R91 for which words these are: in family 8 those with `a` = 8, 9, A, B, C, D, F; in family E those
with `a` neither E nor 1; in family F those whose low byte is none of the nine. Each does nothing but advance PC by 2.
That family E does not examine `b` is the spec's decision D24 (R90, log 8). -/
def Obligations.UnassignedWordsOnlyAdvance : Prop :=
  (∀ c b a : Nibble,
    decode (ofNibbles 0x8 c b 0x8) = .unassigned88 c b ∧ decode (ofNibbles 0x8 c b 0x9) = .unassigned89 c b ∧
    decode (ofNibbles 0x8 c b 0xA) = .unassigned8A c b ∧ decode (ofNibbles 0x8 c b 0xB) = .unassigned8B c b ∧
    decode (ofNibbles 0x8 c b 0xC) = .unassigned8C c b ∧ decode (ofNibbles 0x8 c b 0xD) = .unassigned8D c b ∧
    decode (ofNibbles 0x8 c b 0xF) = .unassigned8F c b ∧
    (a ≠ 0xE → a ≠ 0x1 → decode (ofNibbles 0xE c b a) = .unassignedE c b a) ∧
    (byteOf b a ∉ ([0x07, 0x0A, 0x15, 0x18, 0x1E, 0x29, 0x33, 0x55, 0x65] : List Byte) →
      decode (ofNibbles 0xF c b a) = .unassignedF c (byteOf b a))) ∧
  ∀ (x y a : Nibble) (kk : Byte) (s : State) (i : Instr),
    i ∈ [.unassigned88 x y, .unassigned89 x y, .unassigned8A x y, .unassigned8B x y, .unassigned8C x y,
      .unassigned8D x y, .unassigned8F x y, .unassignedE x y a, .unassignedF x kk] →
    ∃ t, exec i s = .next t ∧ t.pc = s.pc + 2 ∧ ChangesOnly s t []

/-! ## The whole machine -/

/-- R86: every instruction that completes leaves PC as its class says: advance, skip, direct or wait. -/
def Obligations.EveryInstructionFollowsItsPcClass : Prop :=
  ∀ (i : Instr) (s t : State), exec i s = .next t → t.pc = pcAfter i s

/-- Who writes what, over all instructions: I only ANNN, FX1E, FX29 (R23); DT only FX15, ST only FX18 (R25); the stack
only 2NNN and 00EE (R51); KW only FX0A (R29); the display only 00E0 and DXYN, memory only FX33 and FX55 (R51, R60). -/
def Obligations.OnlyNamedInstructionsWriteEachPart : Prop :=
  ∀ (i : Instr) (s t : State), exec i s = .next t →
    (t.I ≠ s.I → (∃ nnn, i = .ldI nnn) ∨ (∃ x, i = .addI x) ∨ ∃ x, i = .ldF x) ∧
    (t.DT ≠ s.DT → ∃ x, i = .ldDTVx x) ∧ (t.ST ≠ s.ST → ∃ x, i = .ldSTVx x) ∧
    (t.stack ≠ s.stack → (∃ nnn, i = .call nnn) ∨ ∃ c b, i = .ret c b) ∧
    (t.KW ≠ s.KW → ∃ x, i = .ldVxK x) ∧
    (t.disp ≠ s.disp → (∃ c b, i = .cls c b) ∨ ∃ x y n, i = .drw x y n) ∧
    (t.mem ≠ s.mem → (∃ x, i = .ldB x) ∨ ∃ x, i = .ldMemVx x) ∧
    t.keys = s.keys ∧ t.rnd = s.rnd ∧ t.pending = s.pending ∧ t.draws = s.draws

/-- R33, R34, R51: only CXKK, EX9E, EXA1 and FX0A read the input samples; every other instruction does the same whatever
they are. -/
def Obligations.OtherInstructionsIgnoreTheInputs : Prop :=
  ∀ (i : Instr) (s : State) (keys : Word) (rnd : Byte), ¬ReadsInputs i →
    (∀ t, exec i s = .next t → exec i (s.sample keys rnd) = .next (t.sample keys rnd)) ∧
    (∀ f, exec i s = .fault f → exec i (s.sample keys rnd) = .fault f)

/-- R231: no instruction observes ST: from two states that differ in ST alone, every instruction gives states that
differ in ST alone, or the same fault. -/
def Obligations.NoInstructionObservesST : Prop :=
  ∀ (i : Instr) (s : State) (b : Byte),
    (∀ t, exec i s = .next t → ∃ t', exec i (s.setST b) = .next t' ∧ t'.setST 0 = t.setST 0) ∧
    (∀ f, exec i s = .fault f → exec i (s.setST b) = .fault f)

/-! ## Faults -/

/-- R220: in a legal state an operation faults exactly where it is a STEP with no key wait pending whose instruction is a
CALL with 16 entries on the stack or a RET with none. The bound is the spec's decision D2 (log 7), the STATUS codes 2
and 3 are its decision D4 (log 8). -/
def Obligations.ExactlyTwoFaultConditions : Prop :=
  ∀ (op : DriverOp) (s : State), s.Inv →
    ((∃ f, perform op s = .fault f) ↔ (∃ keys rnd, op = .step keys rnd) ∧ s.KW.valid = false ∧
      ((∃ nnn, decode s.fetch = .call nnn ∧ s.stack.length = 16) ∨ ∃ c b, decode s.fetch = .ret c b ∧ s.stack = [])) ∧
    (∀ f, perform op s = .fault f → (∃ nnn, decode s.fetch = .call nnn) →
      (statusOf (perform op s)).map statusCode = some 2) ∧
    (∀ f, perform op s = .fault f → (∃ c b, decode s.fetch = .ret c b) →
      (statusOf (perform op s)).map statusCode = some 3)

/-- R222 (decision D3 of the spec): the report of a fault carries the very word the step fetched and the PC it was fetched
from, alias words included. -/
def Obligations.FaultReportsTheFetchedWord : Prop :=
  ∀ (s : State) (keys : Word) (rnd : Byte) (f : Fault), stepOp keys rnd s = .fault f →
    f = .stackOverflow s.fetch s.pc ∨ f = .stackUnderflow s.fetch s.pc

/-- R226 (a derivation of the spec): after a fault, a STEP with any inputs, also with any number of TICKs before it,
raises the same fault with the same report. -/
def Obligations.FaultRepeatsUntilResetOrLoad : Prop :=
  ∀ (s : State) (keys keys' : Word) (rnd rnd' : Byte) (f : Fault) (n : Nat), stepOp keys rnd s = .fault f →
    stepOp keys' rnd' (State.tick^[n] s) = .fault f

/-- R220 and R261: for a STEP with no key wait pending, the step is safe where the instruction at PC keeps the program's
two duties (there is no other fault, R220), and it is a fault where it breaks one. The bound of 16 entries is the spec's
decision D2, and that CALL also faults at a depth above 16, which no legal state has, is the model's choice (both log 7). -/
def Obligations.StepIsSafeExactlyWithinCallDuty : Prop :=
  ∀ (s : State) (keys : Word) (rnd : Byte) (rest : List DriverOp), s.pending = .step keys rnd :: rest →
    s.KW.valid = false →
    (CallDuty (decode s.fetch) s → Safe s) ∧ (¬CallDuty (decode s.fetch) s → ∃ f, step s = .fault f)

/-- R83, R94, R220: no step is refused, from any state. -/
def Obligations.NoStepIsRefused : Prop :=
  ∀ (s : State) (r : Refusal), step s ≠ .refused r

/-! ## The invariant -/

/-- The state at reset is legal: canonical memory (log 11), and a call stack within its bound, here empty (R35). -/
def Obligations.ResetStateIsLegal : Prop := State.reset.Inv

/-- R26, R27, R50: from every legal state, every step of the machine (an instruction, a resumed key wait, TICK, RESET or
LOAD) gives a legal state: memory stays canonical and within 4096 bytes (the form is the model's, log 11), the call stack
within 16 entries (the spec's decision D2, log 7). -/
def Obligations.EveryStepKeepsTheStateLegal : Prop :=
  ∀ s t : State, s.Inv → step s = .next t → t.Inv
end

