-- ==== Sys2Proof/Laws/Encoding.lean ====
section
/-! SUPPORT. The fields of a word, its two bytes, and the fields of the immediates: packing and unpacking are inverse.
Every encoding statement goes through these. -/

namespace Sys2Proof

/-! ### Words -/

@[simp] theorem fieldD_ofNibbles (d c b a : Nibble) : fieldD (ofNibbles d c b a) = d := by
  ext i hi; interval_cases i <;> simp [fieldD, ofNibbles]

@[simp] theorem fieldC_ofNibbles (d c b a : Nibble) : fieldC (ofNibbles d c b a) = c := by
  ext i hi; interval_cases i <;> simp [fieldC, ofNibbles]

@[simp] theorem fieldB_ofNibbles (d c b a : Nibble) : fieldB (ofNibbles d c b a) = b := by
  ext i hi; interval_cases i <;> simp [fieldB, ofNibbles]

@[simp] theorem fieldA_ofNibbles (d c b a : Nibble) : fieldA (ofNibbles d c b a) = a := by
  ext i hi; interval_cases i <;> simp [fieldA, ofNibbles]

@[simp] theorem ofNibbles_fields (w : Word) : ofNibbles (fieldD w) (fieldC w) (fieldB w) (fieldA w) = w := by
  ext i hi; interval_cases i <;> simp [fieldD, fieldC, fieldB, fieldA, ofNibbles]

/-- Every word is its four nibbles: a statement about all words is one about all nibbles. -/
theorem eq_ofNibbles (w : Word) : ∃ d c b a, w = ofNibbles d c b a :=
  ⟨fieldD w, fieldC w, fieldB w, fieldA w, (ofNibbles_fields w).symm⟩

@[simp] theorem decode_ofNibbles (d c b a : Nibble) : decode (ofNibbles d c b a) = decodeFields d c b a := by
  simp [decode]

@[simp] theorem fieldD_and (v w : Word) : fieldD (v &&& w) = fieldD v &&& fieldD w := BitVec.extractLsb'_and
@[simp] theorem fieldC_and (v w : Word) : fieldC (v &&& w) = fieldC v &&& fieldC w := BitVec.extractLsb'_and
@[simp] theorem fieldB_and (v w : Word) : fieldB (v &&& w) = fieldB v &&& fieldB w := BitVec.extractLsb'_and
@[simp] theorem fieldA_and (v w : Word) : fieldA (v &&& w) = fieldA v &&& fieldA w := BitVec.extractLsb'_and

/-- Masking works nibble by nibble. -/
theorem ofNibbles_and (d c b a d' c' b' a' : Nibble) :
    ofNibbles d c b a &&& ofNibbles d' c' b' a' = ofNibbles (d &&& d') (c &&& c') (b &&& b') (a &&& a') := by
  rw [← ofNibbles_fields (ofNibbles d c b a &&& ofNibbles d' c' b' a')]
  simp

/-! ### Immediates -/

@[simp] theorem byteOf_high (b a : Nibble) : (byteOf b a).extractLsb' 4 4 = b := by
  ext i hi; interval_cases i <;> simp [byteOf]

@[simp] theorem byteOf_low (b a : Nibble) : (byteOf b a).extractLsb' 0 4 = a := by
  ext i hi; interval_cases i <;> simp [byteOf]

@[simp] theorem byteOf_fields (kk : Byte) : byteOf (kk.extractLsb' 4 4) (kk.extractLsb' 0 4) = kk := by
  ext i hi; interval_cases i <;> simp [byteOf]

@[simp] theorem addrOf_high (c b a : Nibble) : (addrOf c b a).extractLsb' 8 4 = c := by
  ext i hi; interval_cases i <;> simp [addrOf]

@[simp] theorem addrOf_mid (c b a : Nibble) : (addrOf c b a).extractLsb' 4 4 = b := by
  ext i hi; interval_cases i <;> simp [addrOf]

@[simp] theorem addrOf_low (c b a : Nibble) : (addrOf c b a).extractLsb' 0 4 = a := by
  ext i hi; interval_cases i <;> simp [addrOf]

@[simp] theorem addrOf_fields (nnn : Addr) :
    addrOf (nnn.extractLsb' 8 4) (nnn.extractLsb' 4 4) (nnn.extractLsb' 0 4) = nnn := by
  ext i hi; interval_cases i <;> simp [addrOf]

/-! ### Bytes -/

@[simp] theorem wordOf_bytes (w : Word) : wordOf (highByte w) (lowByte w) = w := by
  ext i hi; interval_cases i <;> simp [wordOf, highByte, lowByte]

@[simp] theorem highByte_wordOf (hi lo : Byte) : highByte (wordOf hi lo) = hi := by
  ext i h; interval_cases i <;> simp [wordOf, highByte]

@[simp] theorem lowByte_wordOf (hi lo : Byte) : lowByte (wordOf hi lo) = lo := by
  ext i h; interval_cases i <;> simp [wordOf, lowByte]

/-- The high byte counts 256 (R84). -/
theorem wordOf_toNat (hi lo : Byte) : (wordOf hi lo).toNat = 256 * hi.toNat + lo.toNat := by
  have h1 := hi.isLt
  have h2 := lo.isLt
  have key : hi.toNat <<< 8 ||| lo.toNat = 256 * hi.toNat + lo.toNat := by
    rw [← Nat.shiftLeft_add_eq_or_of_lt h2, Nat.shiftLeft_eq]; omega
  simp only [wordOf, BitVec.toNat_or, BitVec.toNat_shiftLeft, BitVec.toNat_setWidth]
  rw [Nat.mod_eq_of_lt (a := hi.toNat) (by omega), Nat.mod_eq_of_lt (a := lo.toNat) (by omega),
    Nat.mod_eq_of_lt (by rw [Nat.shiftLeft_eq]; omega), key]

/-- Reading from the front of a byte sequence reads the word of its first two bytes. -/
@[simp] theorem decodeBytes_cons_cons (hi lo : Byte) (rest : List Byte) :
    decodeBytes (hi :: lo :: rest) = .ok (decode (wordOf hi lo), rest) := rfl

end Sys2Proof
end

