-- ==== Sys2Proof/Laws/Memory.lean ====
section
/-! SUPPORT. What the memory primitives do: read after write, the bytes a run of writes leaves, and that every write
keeps the canonical form. The read laws hold of every list of cells, canonical or not. -/

namespace Sys2Proof.Machine

/-! ### Reading -/

@[simp] theorem Memory.read_mod (m : Memory) (a : Nat) : Memory.read m (a % 4096) = Memory.read m a := by
  simp [Memory.read]

@[simp] theorem Memory.write_mod (m : Memory) (a : Nat) (b : Byte) : Memory.write m (a % 4096) b = Memory.write m a b := by
  simp [Memory.write]

@[simp] theorem Memory.read_nil (a : Nat) : Memory.read [] a = Memory.initial (a % 4096) := rfl

theorem Memory.find?_erase (m : Memory) (a a' : Nat) :
    Memory.find? (Memory.erase m a) a' = if a' = a then none else Memory.find? m a' := by
  induction m with
  | nil => simp [Memory.erase, Memory.find?]
  | cons c rest ih =>
    obtain ⟨k, b⟩ := c
    by_cases hk : k = a
    · subst hk
      simp only [Memory.erase, Memory.find?, if_true, ih]
      by_cases h : a' = k
      · simp [h]
      · simp [h, Ne.symm h]
    · simp only [Memory.erase, hk, if_false, Memory.find?, ih]
      by_cases h : a' = a
      · subst h; simp [hk]
      · simp [h]

theorem Memory.find?_insert (m : Memory) (a a' : Nat) (v : Byte) :
    Memory.find? (Memory.insert m a v) a' = if a' = a then some v else Memory.find? m a' := by
  induction m with
  | nil => simp only [Memory.insert, Memory.find?, eq_comm]
  | cons c rest ih =>
    obtain ⟨k, b⟩ := c
    simp only [Memory.insert]
    split
    · simp only [Memory.find?, eq_comm (a := a)]
    · split
      · next h => subst h; simp only [Memory.find?, eq_comm (a := a)]; split <;> rfl
      · next h =>
        simp only [Memory.find?, ih]
        by_cases hk : k = a'
        · subst hk; simp [Ne.symm h]
        · simp [hk]

/-- Read after write (R52, R60): the byte written at that address modulo 4096, every other byte as before. -/
theorem Memory.read_write (m : Memory) (a a' : Nat) (v : Byte) :
    Memory.read (Memory.write m a v) a' = if a' % 4096 = a % 4096 then v else Memory.read m a' := by
  unfold Memory.read Memory.write
  split
  · next hv => rw [Memory.find?_erase]; split <;> simp_all
  · rw [Memory.find?_insert]; split <;> simp_all

/-- A run of bytes that stays inside memory lands on its own addresses and nowhere else (R57). -/
theorem Memory.read_writeBytes (bytes : List Byte) : ∀ (m : Memory) (base a : Nat), base + bytes.length ≤ 4096 →
    Memory.read (Memory.writeBytes m base bytes) a =
      if base ≤ a % 4096 then (bytes[a % 4096 - base]?).getD (Memory.read m a) else Memory.read m a := by
  induction bytes with
  | nil => intro m base a _; simp [Memory.writeBytes]
  | cons b rest ih =>
    intro m base a h
    simp only [List.length_cons] at h
    rw [Memory.writeBytes, ih _ _ _ (by omega), Memory.read_write]
    by_cases h1 : base + 1 ≤ a % 4096
    · have : a % 4096 - base = (a % 4096 - (base + 1)) + 1 := by omega
      simp only [h1, if_true, show base ≤ a % 4096 by omega, this, List.getElem?_cons_succ]
      rw [if_neg (by omega)]
    · by_cases h2 : a % 4096 = base
      · rw [if_neg h1, if_pos (by omega), if_pos (by omega), h2, Nat.sub_self]; rfl
      · rw [if_neg h1, if_neg (by omega), if_neg (by omega)]

/-! ### The canonical form -/

theorem Memory.wfFrom_mono {low low' : Nat} (h : low' ≤ low) : ∀ {m : Memory}, Memory.wfFrom low m = true →
    Memory.wfFrom low' m = true
  | [], _ => rfl
  | (k, b) :: rest, hm => by
    simp only [Memory.wfFrom, Bool.and_eq_true, decide_eq_true_eq] at *
    exact ⟨⟨⟨by omega, hm.1.1.2⟩, hm.1.2⟩, hm.2⟩

theorem Memory.wfFrom_erase (a : Nat) : ∀ {m : Memory} {low : Nat}, Memory.wfFrom low m = true →
    Memory.wfFrom low (Memory.erase m a) = true
  | [], _, _ => rfl
  | (k, b) :: rest, low, hm => by
    simp only [Memory.wfFrom, Bool.and_eq_true, decide_eq_true_eq] at hm
    have ih := Memory.wfFrom_erase a hm.2
    unfold Memory.erase
    split
    · exact Memory.wfFrom_mono (by omega) ih
    · simp only [Memory.wfFrom, Bool.and_eq_true, decide_eq_true_eq]; exact ⟨hm.1, ih⟩

theorem Memory.wfFrom_insert {a : Nat} {v : Byte} (ha : a < 4096) (hv : v ≠ Memory.initial a) :
    ∀ {m : Memory} {low : Nat}, low ≤ a → Memory.wfFrom low m = true → Memory.wfFrom low (Memory.insert m a v) = true
  | [], low, hl, _ => by simp [Memory.insert, Memory.wfFrom, hl, ha, hv]
  | (k, b) :: rest, low, hl, hm => by
    have hm' := hm
    simp only [Memory.wfFrom, Bool.and_eq_true, decide_eq_true_eq] at hm'
    unfold Memory.insert
    split
    · next h =>
      simp only [Memory.wfFrom, Bool.and_eq_true, decide_eq_true_eq, bne_iff_ne]
      simp only [bne_iff_ne] at hm'
      exact ⟨⟨⟨hl, ha⟩, hv⟩, ⟨⟨h, hm'.1.1.2⟩, hm'.1.2⟩, hm'.2⟩
    · split
      · next h =>
        simp only [Memory.wfFrom, Bool.and_eq_true, decide_eq_true_eq, bne_iff_ne]
        exact ⟨⟨⟨hl, ha⟩, hv⟩, h ▸ hm'.2⟩
      · next h1 h2 =>
        simp only [Memory.wfFrom, Bool.and_eq_true, decide_eq_true_eq]
        exact ⟨hm'.1, Memory.wfFrom_insert ha hv (by omega) hm'.2⟩

/-- Every write keeps the canonical form. -/
theorem Memory.wf_write {m : Memory} (h : Memory.wf m = true) (a : Nat) (v : Byte) :
    Memory.wf (Memory.write m a v) = true := by
  unfold Memory.write Memory.wf
  split
  · exact Memory.wfFrom_erase _ h
  · next hv => exact Memory.wfFrom_insert (Nat.mod_lt _ (by decide)) hv (Nat.zero_le _) h

/-- So does a run of writes. -/
theorem Memory.wf_writeBytes (bytes : List Byte) : ∀ {m : Memory} (base : Nat), Memory.wf m = true →
    Memory.wf (Memory.writeBytes m base bytes) = true := by
  induction bytes with
  | nil => intro m _ h; exact h
  | cons b rest ih => intro m base h; exact ih _ (Memory.wf_write h base b)

@[simp] theorem Memory.wf_nil : Memory.wf [] = true := rfl

theorem font_length : font.length = 80 := by decide

end Sys2Proof.Machine
end

