-- ==== Sys2Proof/Laws/State.lean ====
section
/-! SUPPORT. One lemma per field per update of State, true by rfl, and what the register and memory accessors read
after an update of another field. -/

namespace Sys2Proof.Machine

variable (s : State)

/-! ### setReg -/

@[simp] theorem State.setReg_V (x : Nibble) (b : Byte) : (s.setReg x b).V = s.V.set x.toNat b x.isLt := rfl
@[simp] theorem State.setReg_I (x : Nibble) (b : Byte) : (s.setReg x b).I = s.I := rfl
@[simp] theorem State.setReg_pc (x : Nibble) (b : Byte) : (s.setReg x b).pc = s.pc := rfl
@[simp] theorem State.setReg_DT (x : Nibble) (b : Byte) : (s.setReg x b).DT = s.DT := rfl
@[simp] theorem State.setReg_ST (x : Nibble) (b : Byte) : (s.setReg x b).ST = s.ST := rfl
@[simp] theorem State.setReg_stack (x : Nibble) (b : Byte) : (s.setReg x b).stack = s.stack := rfl
@[simp] theorem State.setReg_KW (x : Nibble) (b : Byte) : (s.setReg x b).KW = s.KW := rfl
@[simp] theorem State.setReg_mem (x : Nibble) (b : Byte) : (s.setReg x b).mem = s.mem := rfl
@[simp] theorem State.setReg_disp (x : Nibble) (b : Byte) : (s.setReg x b).disp = s.disp := rfl
@[simp] theorem State.setReg_keys (x : Nibble) (b : Byte) : (s.setReg x b).keys = s.keys := rfl
@[simp] theorem State.setReg_rnd (x : Nibble) (b : Byte) : (s.setReg x b).rnd = s.rnd := rfl
@[simp] theorem State.setReg_pending (x : Nibble) (b : Byte) : (s.setReg x b).pending = s.pending := rfl
@[simp] theorem State.setReg_draws (x : Nibble) (b : Byte) : (s.setReg x b).draws = s.draws := rfl
@[simp] theorem State.setReg_read (x : Nibble) (b : Byte) (addr : Nat) : (s.setReg x b).read addr = s.read addr := rfl
@[simp] theorem State.setReg_effAddr (x : Nibble) (b : Byte) (j : Nat) : (s.setReg x b).effAddr j = s.effAddr j := rfl

/-! ### setI -/

@[simp] theorem State.setI_V (w : Word) : (s.setI w).V = s.V := rfl
@[simp] theorem State.setI_I (w : Word) : (s.setI w).I = w := rfl
@[simp] theorem State.setI_pc (w : Word) : (s.setI w).pc = s.pc := rfl
@[simp] theorem State.setI_DT (w : Word) : (s.setI w).DT = s.DT := rfl
@[simp] theorem State.setI_ST (w : Word) : (s.setI w).ST = s.ST := rfl
@[simp] theorem State.setI_stack (w : Word) : (s.setI w).stack = s.stack := rfl
@[simp] theorem State.setI_KW (w : Word) : (s.setI w).KW = s.KW := rfl
@[simp] theorem State.setI_mem (w : Word) : (s.setI w).mem = s.mem := rfl
@[simp] theorem State.setI_disp (w : Word) : (s.setI w).disp = s.disp := rfl
@[simp] theorem State.setI_keys (w : Word) : (s.setI w).keys = s.keys := rfl
@[simp] theorem State.setI_rnd (w : Word) : (s.setI w).rnd = s.rnd := rfl
@[simp] theorem State.setI_pending (w : Word) : (s.setI w).pending = s.pending := rfl
@[simp] theorem State.setI_draws (w : Word) : (s.setI w).draws = s.draws := rfl
@[simp] theorem State.setI_reg (w : Word) (y : Nibble) : (s.setI w).reg y = s.reg y := rfl
@[simp] theorem State.setI_read (w : Word) (addr : Nat) : (s.setI w).read addr = s.read addr := rfl

/-! ### setPc -/

@[simp] theorem State.setPc_V (w : Word) : (s.setPc w).V = s.V := rfl
@[simp] theorem State.setPc_I (w : Word) : (s.setPc w).I = s.I := rfl
@[simp] theorem State.setPc_pc (w : Word) : (s.setPc w).pc = w := rfl
@[simp] theorem State.setPc_DT (w : Word) : (s.setPc w).DT = s.DT := rfl
@[simp] theorem State.setPc_ST (w : Word) : (s.setPc w).ST = s.ST := rfl
@[simp] theorem State.setPc_stack (w : Word) : (s.setPc w).stack = s.stack := rfl
@[simp] theorem State.setPc_KW (w : Word) : (s.setPc w).KW = s.KW := rfl
@[simp] theorem State.setPc_mem (w : Word) : (s.setPc w).mem = s.mem := rfl
@[simp] theorem State.setPc_disp (w : Word) : (s.setPc w).disp = s.disp := rfl
@[simp] theorem State.setPc_keys (w : Word) : (s.setPc w).keys = s.keys := rfl
@[simp] theorem State.setPc_rnd (w : Word) : (s.setPc w).rnd = s.rnd := rfl
@[simp] theorem State.setPc_pending (w : Word) : (s.setPc w).pending = s.pending := rfl
@[simp] theorem State.setPc_draws (w : Word) : (s.setPc w).draws = s.draws := rfl
@[simp] theorem State.setPc_reg (w : Word) (y : Nibble) : (s.setPc w).reg y = s.reg y := rfl
@[simp] theorem State.setPc_read (w : Word) (addr : Nat) : (s.setPc w).read addr = s.read addr := rfl
@[simp] theorem State.setPc_effAddr (w : Word) (j : Nat) : (s.setPc w).effAddr j = s.effAddr j := rfl

/-! ### adv -/

@[simp] theorem State.adv_V (k : Word) : (s.adv k).V = s.V := rfl
@[simp] theorem State.adv_I (k : Word) : (s.adv k).I = s.I := rfl
@[simp] theorem State.adv_pc (k : Word) : (s.adv k).pc = s.pc + k := rfl
@[simp] theorem State.adv_DT (k : Word) : (s.adv k).DT = s.DT := rfl
@[simp] theorem State.adv_ST (k : Word) : (s.adv k).ST = s.ST := rfl
@[simp] theorem State.adv_stack (k : Word) : (s.adv k).stack = s.stack := rfl
@[simp] theorem State.adv_KW (k : Word) : (s.adv k).KW = s.KW := rfl
@[simp] theorem State.adv_mem (k : Word) : (s.adv k).mem = s.mem := rfl
@[simp] theorem State.adv_disp (k : Word) : (s.adv k).disp = s.disp := rfl
@[simp] theorem State.adv_keys (k : Word) : (s.adv k).keys = s.keys := rfl
@[simp] theorem State.adv_rnd (k : Word) : (s.adv k).rnd = s.rnd := rfl
@[simp] theorem State.adv_pending (k : Word) : (s.adv k).pending = s.pending := rfl
@[simp] theorem State.adv_draws (k : Word) : (s.adv k).draws = s.draws := rfl
@[simp] theorem State.adv_reg (k : Word) (y : Nibble) : (s.adv k).reg y = s.reg y := rfl
@[simp] theorem State.adv_read (k : Word) (addr : Nat) : (s.adv k).read addr = s.read addr := rfl
@[simp] theorem State.adv_effAddr (k : Word) (j : Nat) : (s.adv k).effAddr j = s.effAddr j := rfl

/-! ### setDT -/

@[simp] theorem State.setDT_V (b : Byte) : (s.setDT b).V = s.V := rfl
@[simp] theorem State.setDT_I (b : Byte) : (s.setDT b).I = s.I := rfl
@[simp] theorem State.setDT_pc (b : Byte) : (s.setDT b).pc = s.pc := rfl
@[simp] theorem State.setDT_DT (b : Byte) : (s.setDT b).DT = b := rfl
@[simp] theorem State.setDT_ST (b : Byte) : (s.setDT b).ST = s.ST := rfl
@[simp] theorem State.setDT_stack (b : Byte) : (s.setDT b).stack = s.stack := rfl
@[simp] theorem State.setDT_KW (b : Byte) : (s.setDT b).KW = s.KW := rfl
@[simp] theorem State.setDT_mem (b : Byte) : (s.setDT b).mem = s.mem := rfl
@[simp] theorem State.setDT_disp (b : Byte) : (s.setDT b).disp = s.disp := rfl
@[simp] theorem State.setDT_keys (b : Byte) : (s.setDT b).keys = s.keys := rfl
@[simp] theorem State.setDT_rnd (b : Byte) : (s.setDT b).rnd = s.rnd := rfl
@[simp] theorem State.setDT_pending (b : Byte) : (s.setDT b).pending = s.pending := rfl
@[simp] theorem State.setDT_draws (b : Byte) : (s.setDT b).draws = s.draws := rfl
@[simp] theorem State.setDT_reg (b : Byte) (y : Nibble) : (s.setDT b).reg y = s.reg y := rfl
@[simp] theorem State.setDT_read (b : Byte) (addr : Nat) : (s.setDT b).read addr = s.read addr := rfl
@[simp] theorem State.setDT_effAddr (b : Byte) (j : Nat) : (s.setDT b).effAddr j = s.effAddr j := rfl

/-! ### setST -/

@[simp] theorem State.setST_V (b : Byte) : (s.setST b).V = s.V := rfl
@[simp] theorem State.setST_I (b : Byte) : (s.setST b).I = s.I := rfl
@[simp] theorem State.setST_pc (b : Byte) : (s.setST b).pc = s.pc := rfl
@[simp] theorem State.setST_DT (b : Byte) : (s.setST b).DT = s.DT := rfl
@[simp] theorem State.setST_ST (b : Byte) : (s.setST b).ST = b := rfl
@[simp] theorem State.setST_stack (b : Byte) : (s.setST b).stack = s.stack := rfl
@[simp] theorem State.setST_KW (b : Byte) : (s.setST b).KW = s.KW := rfl
@[simp] theorem State.setST_mem (b : Byte) : (s.setST b).mem = s.mem := rfl
@[simp] theorem State.setST_disp (b : Byte) : (s.setST b).disp = s.disp := rfl
@[simp] theorem State.setST_keys (b : Byte) : (s.setST b).keys = s.keys := rfl
@[simp] theorem State.setST_rnd (b : Byte) : (s.setST b).rnd = s.rnd := rfl
@[simp] theorem State.setST_pending (b : Byte) : (s.setST b).pending = s.pending := rfl
@[simp] theorem State.setST_draws (b : Byte) : (s.setST b).draws = s.draws := rfl
@[simp] theorem State.setST_reg (b : Byte) (y : Nibble) : (s.setST b).reg y = s.reg y := rfl
@[simp] theorem State.setST_read (b : Byte) (addr : Nat) : (s.setST b).read addr = s.read addr := rfl
@[simp] theorem State.setST_effAddr (b : Byte) (j : Nat) : (s.setST b).effAddr j = s.effAddr j := rfl

/-! ### setKW -/

@[simp] theorem State.setKW_V (kw : KeyWait) : (s.setKW kw).V = s.V := rfl
@[simp] theorem State.setKW_I (kw : KeyWait) : (s.setKW kw).I = s.I := rfl
@[simp] theorem State.setKW_pc (kw : KeyWait) : (s.setKW kw).pc = s.pc := rfl
@[simp] theorem State.setKW_DT (kw : KeyWait) : (s.setKW kw).DT = s.DT := rfl
@[simp] theorem State.setKW_ST (kw : KeyWait) : (s.setKW kw).ST = s.ST := rfl
@[simp] theorem State.setKW_stack (kw : KeyWait) : (s.setKW kw).stack = s.stack := rfl
@[simp] theorem State.setKW_KW (kw : KeyWait) : (s.setKW kw).KW = kw := rfl
@[simp] theorem State.setKW_mem (kw : KeyWait) : (s.setKW kw).mem = s.mem := rfl
@[simp] theorem State.setKW_disp (kw : KeyWait) : (s.setKW kw).disp = s.disp := rfl
@[simp] theorem State.setKW_keys (kw : KeyWait) : (s.setKW kw).keys = s.keys := rfl
@[simp] theorem State.setKW_rnd (kw : KeyWait) : (s.setKW kw).rnd = s.rnd := rfl
@[simp] theorem State.setKW_pending (kw : KeyWait) : (s.setKW kw).pending = s.pending := rfl
@[simp] theorem State.setKW_draws (kw : KeyWait) : (s.setKW kw).draws = s.draws := rfl
@[simp] theorem State.setKW_reg (kw : KeyWait) (y : Nibble) : (s.setKW kw).reg y = s.reg y := rfl
@[simp] theorem State.setKW_read (kw : KeyWait) (addr : Nat) : (s.setKW kw).read addr = s.read addr := rfl
@[simp] theorem State.setKW_effAddr (kw : KeyWait) (j : Nat) : (s.setKW kw).effAddr j = s.effAddr j := rfl

/-! ### setStack -/

@[simp] theorem State.setStack_V (st : List Word) : (s.setStack st).V = s.V := rfl
@[simp] theorem State.setStack_I (st : List Word) : (s.setStack st).I = s.I := rfl
@[simp] theorem State.setStack_pc (st : List Word) : (s.setStack st).pc = s.pc := rfl
@[simp] theorem State.setStack_DT (st : List Word) : (s.setStack st).DT = s.DT := rfl
@[simp] theorem State.setStack_ST (st : List Word) : (s.setStack st).ST = s.ST := rfl
@[simp] theorem State.setStack_stack (st : List Word) : (s.setStack st).stack = st := rfl
@[simp] theorem State.setStack_KW (st : List Word) : (s.setStack st).KW = s.KW := rfl
@[simp] theorem State.setStack_mem (st : List Word) : (s.setStack st).mem = s.mem := rfl
@[simp] theorem State.setStack_disp (st : List Word) : (s.setStack st).disp = s.disp := rfl
@[simp] theorem State.setStack_keys (st : List Word) : (s.setStack st).keys = s.keys := rfl
@[simp] theorem State.setStack_rnd (st : List Word) : (s.setStack st).rnd = s.rnd := rfl
@[simp] theorem State.setStack_pending (st : List Word) : (s.setStack st).pending = s.pending := rfl
@[simp] theorem State.setStack_draws (st : List Word) : (s.setStack st).draws = s.draws := rfl
@[simp] theorem State.setStack_reg (st : List Word) (y : Nibble) : (s.setStack st).reg y = s.reg y := rfl
@[simp] theorem State.setStack_read (st : List Word) (addr : Nat) : (s.setStack st).read addr = s.read addr := rfl
@[simp] theorem State.setStack_effAddr (st : List Word) (j : Nat) : (s.setStack st).effAddr j = s.effAddr j := rfl

/-! ### setMem -/

@[simp] theorem State.setMem_V (m : Memory) : (s.setMem m).V = s.V := rfl
@[simp] theorem State.setMem_I (m : Memory) : (s.setMem m).I = s.I := rfl
@[simp] theorem State.setMem_pc (m : Memory) : (s.setMem m).pc = s.pc := rfl
@[simp] theorem State.setMem_DT (m : Memory) : (s.setMem m).DT = s.DT := rfl
@[simp] theorem State.setMem_ST (m : Memory) : (s.setMem m).ST = s.ST := rfl
@[simp] theorem State.setMem_stack (m : Memory) : (s.setMem m).stack = s.stack := rfl
@[simp] theorem State.setMem_KW (m : Memory) : (s.setMem m).KW = s.KW := rfl
@[simp] theorem State.setMem_mem (m : Memory) : (s.setMem m).mem = m := rfl
@[simp] theorem State.setMem_disp (m : Memory) : (s.setMem m).disp = s.disp := rfl
@[simp] theorem State.setMem_keys (m : Memory) : (s.setMem m).keys = s.keys := rfl
@[simp] theorem State.setMem_rnd (m : Memory) : (s.setMem m).rnd = s.rnd := rfl
@[simp] theorem State.setMem_pending (m : Memory) : (s.setMem m).pending = s.pending := rfl
@[simp] theorem State.setMem_draws (m : Memory) : (s.setMem m).draws = s.draws := rfl
@[simp] theorem State.setMem_reg (m : Memory) (y : Nibble) : (s.setMem m).reg y = s.reg y := rfl
@[simp] theorem State.setMem_effAddr (m : Memory) (j : Nat) : (s.setMem m).effAddr j = s.effAddr j := rfl

/-! ### write -/

@[simp] theorem State.write_V (a : Nat) (b : Byte) : (s.write a b).V = s.V := rfl
@[simp] theorem State.write_I (a : Nat) (b : Byte) : (s.write a b).I = s.I := rfl
@[simp] theorem State.write_pc (a : Nat) (b : Byte) : (s.write a b).pc = s.pc := rfl
@[simp] theorem State.write_DT (a : Nat) (b : Byte) : (s.write a b).DT = s.DT := rfl
@[simp] theorem State.write_ST (a : Nat) (b : Byte) : (s.write a b).ST = s.ST := rfl
@[simp] theorem State.write_stack (a : Nat) (b : Byte) : (s.write a b).stack = s.stack := rfl
@[simp] theorem State.write_KW (a : Nat) (b : Byte) : (s.write a b).KW = s.KW := rfl
@[simp] theorem State.write_mem (a : Nat) (b : Byte) : (s.write a b).mem = Memory.write s.mem a b := rfl
@[simp] theorem State.write_disp (a : Nat) (b : Byte) : (s.write a b).disp = s.disp := rfl
@[simp] theorem State.write_keys (a : Nat) (b : Byte) : (s.write a b).keys = s.keys := rfl
@[simp] theorem State.write_rnd (a : Nat) (b : Byte) : (s.write a b).rnd = s.rnd := rfl
@[simp] theorem State.write_pending (a : Nat) (b : Byte) : (s.write a b).pending = s.pending := rfl
@[simp] theorem State.write_draws (a : Nat) (b : Byte) : (s.write a b).draws = s.draws := rfl
@[simp] theorem State.write_reg (a : Nat) (b : Byte) (y : Nibble) : (s.write a b).reg y = s.reg y := rfl
@[simp] theorem State.write_effAddr (a : Nat) (b : Byte) (j : Nat) : (s.write a b).effAddr j = s.effAddr j := rfl

/-! ### setDisp -/

@[simp] theorem State.setDisp_V (d : Disp) : (s.setDisp d).V = s.V := rfl
@[simp] theorem State.setDisp_I (d : Disp) : (s.setDisp d).I = s.I := rfl
@[simp] theorem State.setDisp_pc (d : Disp) : (s.setDisp d).pc = s.pc := rfl
@[simp] theorem State.setDisp_DT (d : Disp) : (s.setDisp d).DT = s.DT := rfl
@[simp] theorem State.setDisp_ST (d : Disp) : (s.setDisp d).ST = s.ST := rfl
@[simp] theorem State.setDisp_stack (d : Disp) : (s.setDisp d).stack = s.stack := rfl
@[simp] theorem State.setDisp_KW (d : Disp) : (s.setDisp d).KW = s.KW := rfl
@[simp] theorem State.setDisp_mem (d : Disp) : (s.setDisp d).mem = s.mem := rfl
@[simp] theorem State.setDisp_disp (d : Disp) : (s.setDisp d).disp = d := rfl
@[simp] theorem State.setDisp_keys (d : Disp) : (s.setDisp d).keys = s.keys := rfl
@[simp] theorem State.setDisp_rnd (d : Disp) : (s.setDisp d).rnd = s.rnd := rfl
@[simp] theorem State.setDisp_pending (d : Disp) : (s.setDisp d).pending = s.pending := rfl
@[simp] theorem State.setDisp_draws (d : Disp) : (s.setDisp d).draws = s.draws := rfl
@[simp] theorem State.setDisp_reg (d : Disp) (y : Nibble) : (s.setDisp d).reg y = s.reg y := rfl
@[simp] theorem State.setDisp_read (d : Disp) (addr : Nat) : (s.setDisp d).read addr = s.read addr := rfl
@[simp] theorem State.setDisp_effAddr (d : Disp) (j : Nat) : (s.setDisp d).effAddr j = s.effAddr j := rfl

/-! ### sample -/

@[simp] theorem State.sample_V (ks : Word) (r : Byte) : (s.sample ks r).V = s.V := rfl
@[simp] theorem State.sample_I (ks : Word) (r : Byte) : (s.sample ks r).I = s.I := rfl
@[simp] theorem State.sample_pc (ks : Word) (r : Byte) : (s.sample ks r).pc = s.pc := rfl
@[simp] theorem State.sample_DT (ks : Word) (r : Byte) : (s.sample ks r).DT = s.DT := rfl
@[simp] theorem State.sample_ST (ks : Word) (r : Byte) : (s.sample ks r).ST = s.ST := rfl
@[simp] theorem State.sample_stack (ks : Word) (r : Byte) : (s.sample ks r).stack = s.stack := rfl
@[simp] theorem State.sample_KW (ks : Word) (r : Byte) : (s.sample ks r).KW = s.KW := rfl
@[simp] theorem State.sample_mem (ks : Word) (r : Byte) : (s.sample ks r).mem = s.mem := rfl
@[simp] theorem State.sample_disp (ks : Word) (r : Byte) : (s.sample ks r).disp = s.disp := rfl
@[simp] theorem State.sample_keys (ks : Word) (r : Byte) : (s.sample ks r).keys = ks := rfl
@[simp] theorem State.sample_rnd (ks : Word) (r : Byte) : (s.sample ks r).rnd = r := rfl
@[simp] theorem State.sample_pending (ks : Word) (r : Byte) : (s.sample ks r).pending = s.pending := rfl
@[simp] theorem State.sample_draws (ks : Word) (r : Byte) : (s.sample ks r).draws = s.draws := rfl
@[simp] theorem State.sample_reg (ks : Word) (r : Byte) (y : Nibble) : (s.sample ks r).reg y = s.reg y := rfl
@[simp] theorem State.sample_read (ks : Word) (r : Byte) (addr : Nat) : (s.sample ks r).read addr = s.read addr := rfl
@[simp] theorem State.sample_effAddr (ks : Word) (r : Byte) (j : Nat) : (s.sample ks r).effAddr j = s.effAddr j := rfl

/-! ### setFlag -/

@[simp] theorem State.setFlag_I (f : Bool) : (s.setFlag f).I = s.I := rfl
@[simp] theorem State.setFlag_pc (f : Bool) : (s.setFlag f).pc = s.pc := rfl
@[simp] theorem State.setFlag_DT (f : Bool) : (s.setFlag f).DT = s.DT := rfl
@[simp] theorem State.setFlag_ST (f : Bool) : (s.setFlag f).ST = s.ST := rfl
@[simp] theorem State.setFlag_stack (f : Bool) : (s.setFlag f).stack = s.stack := rfl
@[simp] theorem State.setFlag_KW (f : Bool) : (s.setFlag f).KW = s.KW := rfl
@[simp] theorem State.setFlag_mem (f : Bool) : (s.setFlag f).mem = s.mem := rfl
@[simp] theorem State.setFlag_disp (f : Bool) : (s.setFlag f).disp = s.disp := rfl
@[simp] theorem State.setFlag_keys (f : Bool) : (s.setFlag f).keys = s.keys := rfl
@[simp] theorem State.setFlag_rnd (f : Bool) : (s.setFlag f).rnd = s.rnd := rfl
@[simp] theorem State.setFlag_pending (f : Bool) : (s.setFlag f).pending = s.pending := rfl
@[simp] theorem State.setFlag_draws (f : Bool) : (s.setFlag f).draws = s.draws := rfl
@[simp] theorem State.setFlag_read (f : Bool) (addr : Nat) : (s.setFlag f).read addr = s.read addr := rfl
@[simp] theorem State.setFlag_effAddr (f : Bool) (j : Nat) : (s.setFlag f).effAddr j = s.effAddr j := rfl

/-! ### setRegThenFlag -/

@[simp] theorem State.setRegThenFlag_I (x : Nibble) (b : Byte) (f : Bool) : (s.setRegThenFlag x b f).I = s.I := rfl
@[simp] theorem State.setRegThenFlag_pc (x : Nibble) (b : Byte) (f : Bool) : (s.setRegThenFlag x b f).pc = s.pc := rfl
@[simp] theorem State.setRegThenFlag_DT (x : Nibble) (b : Byte) (f : Bool) : (s.setRegThenFlag x b f).DT = s.DT := rfl
@[simp] theorem State.setRegThenFlag_ST (x : Nibble) (b : Byte) (f : Bool) : (s.setRegThenFlag x b f).ST = s.ST := rfl
@[simp] theorem State.setRegThenFlag_stack (x : Nibble) (b : Byte) (f : Bool) : (s.setRegThenFlag x b f).stack = s.stack := rfl
@[simp] theorem State.setRegThenFlag_KW (x : Nibble) (b : Byte) (f : Bool) : (s.setRegThenFlag x b f).KW = s.KW := rfl
@[simp] theorem State.setRegThenFlag_mem (x : Nibble) (b : Byte) (f : Bool) : (s.setRegThenFlag x b f).mem = s.mem := rfl
@[simp] theorem State.setRegThenFlag_disp (x : Nibble) (b : Byte) (f : Bool) : (s.setRegThenFlag x b f).disp = s.disp := rfl
@[simp] theorem State.setRegThenFlag_keys (x : Nibble) (b : Byte) (f : Bool) : (s.setRegThenFlag x b f).keys = s.keys := rfl
@[simp] theorem State.setRegThenFlag_rnd (x : Nibble) (b : Byte) (f : Bool) : (s.setRegThenFlag x b f).rnd = s.rnd := rfl
@[simp] theorem State.setRegThenFlag_pending (x : Nibble) (b : Byte) (f : Bool) : (s.setRegThenFlag x b f).pending = s.pending := rfl
@[simp] theorem State.setRegThenFlag_draws (x : Nibble) (b : Byte) (f : Bool) : (s.setRegThenFlag x b f).draws = s.draws := rfl
@[simp] theorem State.setRegThenFlag_read (x : Nibble) (b : Byte) (f : Bool) (addr : Nat) : (s.setRegThenFlag x b f).read addr = s.read addr := rfl
@[simp] theorem State.setRegThenFlag_effAddr (x : Nibble) (b : Byte) (f : Bool) (j : Nat) : (s.setRegThenFlag x b f).effAddr j = s.effAddr j := rfl

/-! ### skipIf: only PC -/

@[simp] theorem State.skipIf_pc (c : Bool) : (s.skipIf c).pc = s.pc + (if c then 4 else 2) := by
  cases c <;> rfl
@[simp] theorem State.skipIf_V (c : Bool) : (s.skipIf c).V = s.V := by cases c <;> rfl
@[simp] theorem State.skipIf_I (c : Bool) : (s.skipIf c).I = s.I := by cases c <;> rfl
@[simp] theorem State.skipIf_DT (c : Bool) : (s.skipIf c).DT = s.DT := by cases c <;> rfl
@[simp] theorem State.skipIf_ST (c : Bool) : (s.skipIf c).ST = s.ST := by cases c <;> rfl
@[simp] theorem State.skipIf_stack (c : Bool) : (s.skipIf c).stack = s.stack := by cases c <;> rfl
@[simp] theorem State.skipIf_KW (c : Bool) : (s.skipIf c).KW = s.KW := by cases c <;> rfl
@[simp] theorem State.skipIf_mem (c : Bool) : (s.skipIf c).mem = s.mem := by cases c <;> rfl
@[simp] theorem State.skipIf_disp (c : Bool) : (s.skipIf c).disp = s.disp := by cases c <;> rfl
@[simp] theorem State.skipIf_keys (c : Bool) : (s.skipIf c).keys = s.keys := by cases c <;> rfl
@[simp] theorem State.skipIf_rnd (c : Bool) : (s.skipIf c).rnd = s.rnd := by cases c <;> rfl
@[simp] theorem State.skipIf_pending (c : Bool) : (s.skipIf c).pending = s.pending := by cases c <;> rfl
@[simp] theorem State.skipIf_draws (c : Bool) : (s.skipIf c).draws = s.draws := by cases c <;> rfl
@[simp] theorem State.skipIf_reg (c : Bool) (y : Nibble) : (s.skipIf c).reg y = s.reg y := by cases c <;> rfl
@[simp] theorem State.skipIf_read (c : Bool) (addr : Nat) : (s.skipIf c).read addr = s.read addr := by cases c <;> rfl

/-! ### Reset -/

@[simp] theorem Engine.reset_reg (x : Nibble) : State.reg State.reset x = 0 := by
  simp [State.reg, State.reset, Engine.reset]

@[simp] theorem State.resetEngine_toEngine : s.resetEngine.toEngine = Engine.reset := rfl
@[simp] theorem State.resetEngine_keys : s.resetEngine.keys = s.keys := rfl
@[simp] theorem State.resetEngine_rnd : s.resetEngine.rnd = s.rnd := rfl
@[simp] theorem State.resetEngine_pending : s.resetEngine.pending = s.pending := rfl
@[simp] theorem State.resetEngine_draws : s.resetEngine.draws = s.draws := rfl

end Sys2Proof.Machine
end

