-- ==== Sys2Proof/Laws/Surface.lean ====
section
/-! SUPPORT. What the display primitives do, cell by cell: Toggle, ClearDisplay, and a whole sprite. A sprite is the
list of the points it toggles; no two of them are the same cell (R191), so each covered cell is flipped once. -/

namespace Sys2Proof.Machine

/-! ### Cells -/

@[simp] theorem Disp.cell_blank (x y : Nat) : Disp.blank.cell x y = false := by simp [Disp.cell, Disp.blank]

theorem Disp.cell_mod (d : Disp) (x y : Nat) : d.cell (x % 64) (y % 32) = d.cell x y := by simp [Disp.cell]

/-- Cells are equal where the wrapped coordinates are (R61). -/
theorem Disp.cell_congr (d : Disp) {x y x' y' : Nat} (hx : x % 64 = x' % 64) (hy : y % 32 = y' % 32) :
    d.cell x y = d.cell x' y' := by rw [← Disp.cell_mod d x y, hx, hy, Disp.cell_mod]

/-- Toggle flips the cell at the wrapped coordinates and no other (R63). -/
theorem Disp.cell_toggle (d : Disp) (x y cx cy : Nat) :
    (d.toggle x y).cell cx cy =
      if cx % 64 = x % 64 ∧ cy % 32 = y % 32 then !d.cell cx cy else d.cell cx cy := by
  have key : (d.toggle x y).cell cx cy =
      if cx % 64 = x % 64 ∧ cy % 32 = y % 32 then !d.cell x y else d.cell cx cy := by
    simp only [Disp.cell, Disp.toggle, Vector.getElem_set]
    by_cases hy : y % 32 = cy % 32
    · simp only [hy, if_true, Vector.getElem_set]
      by_cases hx : x % 64 = cx % 64
      · simp [hx]
      · simp [hx, Ne.symm hx]
    · simp [hy, Ne.symm hy]
  rw [key]
  split
  · next h => rw [Disp.cell_congr d h.1 h.2]
  · rfl

/-- Two surfaces with the same cells are the same surface. -/
theorem Disp.ext_cell {d d' : Disp} (h : ∀ x y, x < 64 → y < 32 → d.cell x y = d'.cell x y) : d = d' := by
  apply Vector.ext
  intro y hy
  apply Vector.ext
  intro x hx
  have := h x y hx hy
  simpa [Disp.cell, Nat.mod_eq_of_lt hx, Nat.mod_eq_of_lt hy] using this

/-! ### Sprites as points -/

/-- Two points on different cells. -/
def Apart (p q : Nat × Nat) : Prop := ¬(p.1 % 64 = q.1 % 64 ∧ p.2 % 32 = q.2 % 32)

/-- Whether a point is on the cell `(cx, cy)`. -/
def onCell (cx cy : Nat) (p : Nat × Nat) : Bool := decide (cx % 64 = p.1 % 64) && decide (cy % 32 = p.2 % 32)

/-- The points a sprite row toggles. -/
def rowPoints (row : Byte) (x y : Nat) : List (Nat × Nat) :=
  ((List.range 8).filter fun k => row.getLsbD (7 - k)).map fun k => (x + k, y)

/-- The points a sprite toggles, in order. -/
def spritePoints : List Byte → Nat → Nat → List (Nat × Nat)
  | [], _, _ => []
  | row :: rows, x, y => rowPoints row x y ++ spritePoints rows x (y + 1)

/-- Toggling a list of points, as DRW does. -/
def togglePoints (pts : List (Nat × Nat)) (acc : Disp × Bool) : Disp × Bool :=
  pts.foldl (fun acc p => Disp.toggleHit acc p.1 p.2) acc

theorem Disp.drawRow_eq (row : Byte) (x y : Nat) (acc : Disp × Bool) :
    Disp.drawRow row x y acc = togglePoints (rowPoints row x y) acc := by
  simp only [Disp.drawRow, togglePoints, rowPoints, List.foldl_map, List.foldl_filter]

theorem Disp.drawRows_eq (rows : List Byte) : ∀ (x y : Nat) (acc : Disp × Bool),
    Disp.drawRows rows x y acc = togglePoints (spritePoints rows x y) acc := by
  induction rows with
  | nil => intro x y acc; rfl
  | cons row rows ih =>
    intro x y acc
    rw [Disp.drawRows, ih, Disp.drawRow_eq, spritePoints, togglePoints, togglePoints, togglePoints, List.foldl_append]

theorem mem_rowPoints {row : Byte} {x y : Nat} {p : Nat × Nat} :
    p ∈ rowPoints row x y ↔ ∃ k, k < 8 ∧ row.getLsbD (7 - k) = true ∧ p = (x + k, y) := by
  simp only [rowPoints, List.mem_map, List.mem_filter, List.mem_range]
  constructor
  · rintro ⟨k, ⟨hk, hb⟩, rfl⟩; exact ⟨k, hk, hb, rfl⟩
  · rintro ⟨k, hk, hb, rfl⟩; exact ⟨k, ⟨hk, hb⟩, rfl⟩

/-- A sprite's points: row `j`, column `k`, where bit `7 - k` of the row is set (R191, R192). -/
theorem mem_spritePoints (rows : List Byte) : ∀ {x y : Nat} {p : Nat × Nat}, p ∈ spritePoints rows x y ↔
    ∃ j k row, rows[j]? = some row ∧ k < 8 ∧ row.getLsbD (7 - k) = true ∧ p = (x + k, y + j) := by
  induction rows with
  | nil => intro x y p; simp [spritePoints]
  | cons r rows ih =>
    intro x y p
    rw [spritePoints, List.mem_append, mem_rowPoints, ih]
    constructor
    · rintro (⟨k, hk, hb, rfl⟩ | ⟨j, k, row, hr, hk, hb, rfl⟩)
      · exact ⟨0, k, r, rfl, hk, hb, rfl⟩
      · exact ⟨j + 1, k, row, by simpa using hr, hk, hb, by rw [Nat.add_right_comm, Nat.add_assoc]⟩
    · rintro ⟨j, k, row, hr, hk, hb, rfl⟩
      cases j with
      | zero => left; simp only [List.getElem?_cons_zero, Option.some.injEq] at hr; exact ⟨k, hk, hr ▸ hb, rfl⟩
      | succ j => right; exact ⟨j, k, row, by simpa using hr, hk, hb, by rw [Nat.add_right_comm, Nat.add_assoc]⟩

theorem rowPoints_apart (row : Byte) (x y : Nat) : (rowPoints row x y).Pairwise Apart := by
  rw [rowPoints, List.pairwise_map]
  have hlt : ((List.range 8).filter fun k => row.getLsbD (7 - k)).Pairwise (· < ·) :=
    List.pairwise_lt_range.filter _
  refine (List.pairwise_iff_forall_sublist.mpr ?_)
  intro a b hab
  have hab' := (List.pairwise_iff_forall_sublist.mp hlt) hab
  have hb : b ∈ (List.range 8).filter fun k => row.getLsbD (7 - k) := hab.subset (by simp)
  have hb8 : b < 8 := by simpa using (List.mem_filter.mp hb).1
  rintro ⟨h, -⟩
  simp only at h
  omega

/-- No sprite of at most 32 rows toggles a cell twice (R191). -/
theorem spritePoints_apart (rows : List Byte) : ∀ (x y : Nat), rows.length ≤ 32 →
    (spritePoints rows x y).Pairwise Apart := by
  induction rows with
  | nil => intro x y _; exact List.Pairwise.nil
  | cons r rows ih =>
    intro x y h
    simp only [List.length_cons] at h
    rw [spritePoints, List.pairwise_append]
    refine ⟨rowPoints_apart r x y, ih x (y + 1) (by omega), ?_⟩
    intro p hp q hq
    obtain ⟨k, -, -, rfl⟩ := mem_rowPoints.mp hp
    obtain ⟨j, k', row, hr, -, -, rfl⟩ := (mem_spritePoints rows).mp hq
    have hj : j < rows.length := (List.getElem?_eq_some_iff.mp hr).1
    rintro ⟨-, h'⟩
    simp only at h'
    omega

/-! ### Toggling points that are apart -/

/-- Each cell is flipped exactly where a point is on it. -/
theorem togglePoints_cell (pts : List (Nat × Nat)) : ∀ (acc : Disp × Bool) (cx cy : Nat), pts.Pairwise Apart →
    (togglePoints pts acc).1.cell cx cy = (acc.1.cell cx cy ^^ pts.any (onCell cx cy)) := by
  induction pts with
  | nil => intro acc cx cy _; simp [togglePoints]
  | cons p pts ih =>
    intro acc cx cy h
    rw [List.pairwise_cons] at h
    have ih' := ih (Disp.toggleHit acc p.1 p.2) cx cy h.2
    have step : togglePoints (p :: pts) acc = togglePoints pts (Disp.toggleHit acc p.1 p.2) := rfl
    rw [step, ih', List.any_cons]
    simp only [Disp.toggleHit, Disp.cell_toggle]
    by_cases hp : cx % 64 = p.1 % 64 ∧ cy % 32 = p.2 % 32
    · have none : pts.any (onCell cx cy) = false := by
        rw [List.any_eq_false]
        intro q hq hon
        simp only [onCell, Bool.and_eq_true, decide_eq_true_eq] at hon
        exact h.1 q hq ⟨hp.1 ▸ hon.1, hp.2 ▸ hon.2⟩
      simp [none, hp, onCell]
    · have off : onCell cx cy p = false := by
        simp only [onCell, Bool.and_eq_false_iff, decide_eq_false_iff_not]; omega
      rw [if_neg hp, off, Bool.false_or]

/-- An on cell is turned off exactly where a point is on a cell that was on before (R63, R193). -/
theorem togglePoints_hit (pts : List (Nat × Nat)) : ∀ (acc : Disp × Bool), pts.Pairwise Apart →
    (togglePoints pts acc).2 = (acc.2 || pts.any fun p => acc.1.cell p.1 p.2) := by
  induction pts with
  | nil => intro acc _; simp [togglePoints]
  | cons p pts ih =>
    intro acc h
    rw [List.pairwise_cons] at h
    have step : togglePoints (p :: pts) acc = togglePoints pts (Disp.toggleHit acc p.1 p.2) := rfl
    have same : (pts.any fun q => (Disp.toggleHit acc p.1 p.2).1.cell q.1 q.2) = pts.any fun q => acc.1.cell q.1 q.2 := by
      rw [Bool.eq_iff_iff]
      simp only [List.any_eq_true]
      constructor
      all_goals
        rintro ⟨q, hq, hc⟩
        refine ⟨q, hq, ?_⟩
        have hne : ¬(q.1 % 64 = p.1 % 64 ∧ q.2 % 32 = p.2 % 32) := fun e => h.1 q hq ⟨e.1.symm, e.2.symm⟩
        simpa [Disp.toggleHit, Disp.cell_toggle, hne] using hc
    rw [step, ih _ h.2, same, List.any_cons]
    simp [Disp.toggleHit, Bool.or_assoc]

/-- The cells a sprite covers: some row `j` and column `k` with bit `7 - k` of the row set, at the wrapped coordinates
(R191, R192). -/
def Covered (rows : List Byte) (x y cx cy : Nat) : Prop :=
  ∃ j k row, rows[j]? = some row ∧ k < 8 ∧ row.getLsbD (7 - k) = true ∧ (x + k) % 64 = cx % 64 ∧
    (y + j) % 32 = cy % 32

theorem any_onCell_iff (rows : List Byte) (x y cx cy : Nat) :
    (spritePoints rows x y).any (onCell cx cy) = true ↔ Covered rows x y cx cy := by
  simp only [List.any_eq_true, mem_spritePoints, onCell, Bool.and_eq_true, decide_eq_true_eq]
  constructor
  · rintro ⟨p, ⟨j, k, row, hr, hk, hb, rfl⟩, h1, h2⟩; exact ⟨j, k, row, hr, hk, hb, h1.symm, h2.symm⟩
  · rintro ⟨j, k, row, hr, hk, hb, h1, h2⟩; exact ⟨_, ⟨j, k, row, hr, hk, hb, rfl⟩, h1.symm, h2.symm⟩

/-- After a sprite, a cell is on iff exactly one of these holds: it was on before, the sprite covers it. -/
theorem Disp.drawRows_cell (rows : List Byte) (x y cx cy : Nat) (acc : Disp × Bool) (h : rows.length ≤ 32) :
    (Disp.drawRows rows x y acc).1.cell cx cy = true ↔ ¬(acc.1.cell cx cy = true ↔ Covered rows x y cx cy) := by
  rw [Disp.drawRows_eq, togglePoints_cell _ _ _ _ (spritePoints_apart rows x y h), ← any_onCell_iff]
  cases acc.1.cell cx cy <;> cases (spritePoints rows x y).any (onCell cx cy) <;> simp

/-- A sprite reports a hit iff it covers a cell that was on, or a hit was reported before it. -/
theorem Disp.drawRows_hit (rows : List Byte) (x y : Nat) (acc : Disp × Bool) (h : rows.length ≤ 32) :
    (Disp.drawRows rows x y acc).2 = true ↔
      acc.2 = true ∨ ∃ cx cy, acc.1.cell cx cy = true ∧ Covered rows x y cx cy := by
  rw [Disp.drawRows_eq, togglePoints_hit _ _ (spritePoints_apart rows x y h), Bool.or_eq_true, List.any_eq_true]
  refine or_congr_right ⟨?_, ?_⟩
  · rintro ⟨p, hp, hc⟩
    obtain ⟨j, k, row, hr, hk, hb, rfl⟩ := (mem_spritePoints rows).mp hp
    exact ⟨_, _, hc, j, k, row, hr, hk, hb, rfl, rfl⟩
  · rintro ⟨cx, cy, hc, j, k, row, hr, hk, hb, h1, h2⟩
    exact ⟨_, (mem_spritePoints rows).mpr ⟨j, k, row, hr, hk, hb, rfl⟩, by rwa [Disp.cell_congr acc.1 h1 h2]⟩

end Sys2Proof.Machine
end

