-- ==== Sys2Proof/Laws/Ops.lean ====
section
/-! SUPPORT. One lemma per shared operation that says everything it can do. The provers cite these and do not unfold
the operations. -/

namespace Sys2Proof.Machine

variable (s : State)

/-! ### Registers -/

/-- A register write changes that register and no other (R21). -/
theorem State.reg_setReg (x y : Nibble) (b : Byte) : (s.setReg x b).reg y = if y = x then b else s.reg y := by
  simp only [State.reg, State.setReg, Vector.getElem_set, ← BitVec.toNat_inj, eq_comm (a := y.toNat)]

@[simp] theorem State.reg_setReg_self (x : Nibble) (b : Byte) : (s.setReg x b).reg x = b := by simp [State.reg_setReg]

theorem State.reg_setFlag (y : Nibble) (f : Bool) : (s.setFlag f).reg y = if y = regVF then flagByte f else s.reg y :=
  s.reg_setReg _ _ _

/-- A result and then a flag: VF ends holding the flag, whichever register the result went to (R22). -/
theorem State.reg_setRegThenFlag (x y : Nibble) (b : Byte) (f : Bool) : (s.setRegThenFlag x b f).reg y =
    if y = regVF then flagByte f else if y = x then b else s.reg y := by
  rw [State.setRegThenFlag, State.reg_setFlag, State.reg_setReg]

/-- Register files that read alike are equal. -/
theorem State.V_ext {s t : State} (h : ∀ x, s.reg x = t.reg x) : s.V = t.V := by
  apply Vector.ext
  intro k hk
  have := h (BitVec.ofNat 4 k)
  simpa [State.reg, Nat.mod_eq_of_lt hk] using this

/-! ### Flags and timers -/

theorem flagByte_eq_one (f : Bool) : flagByte f = 1 ↔ f = true := by cases f <;> decide
theorem flagByte_eq_zero (f : Bool) : flagByte f = 0 ↔ f = false := by cases f <;> decide

/-- A timer counts down by one and stays at 0 (R229). -/
theorem countDown_toNat (t : Byte) : (countDown t).toNat = t.toNat - 1 := by
  unfold countDown
  split
  · next h => simp [h]
  · next h =>
    have h' : t.toNat ≠ 0 := fun e => h (BitVec.eq_of_toNat_eq (by simpa using e))
    bv_omega

/-! ### Call stack -/

/-- Push succeeds exactly below the bound, and then appends (R27). -/
theorem State.push?_eq_some_iff {v : Word} {t : State} :
    s.push? v = some t ↔ s.stack.length < stackDepth ∧ t = s.setStack (s.stack ++ [v]) := by
  unfold State.push?
  split
  · next h => simp [Nat.not_lt.mpr h]
  · next h => simp [Nat.lt_of_not_le h, eq_comm]

/-- Push fails exactly at the bound (R27). -/
theorem State.push?_eq_none_iff {v : Word} : s.push? v = none ↔ stackDepth ≤ s.stack.length := by
  unfold State.push?; split <;> simp_all

/-- Pop succeeds exactly on a stack that ends in some entry, and removes it (R28). -/
theorem State.pop?_eq_some_iff {v : Word} {t : State} :
    s.pop? = some (v, t) ↔ ∃ rest, s.stack = rest ++ [v] ∧ t = s.setStack rest := by
  unfold State.pop?
  cases h : s.stack.getLast? with
  | none => simp only [List.getLast?_eq_none_iff] at h; simp [h]
  | some w =>
    obtain ⟨rest, hr⟩ := List.getLast?_eq_some_iff.mp h
    simp only [Option.some.injEq, Prod.mk.injEq, hr, List.dropLast_concat]
    constructor
    · rintro ⟨rfl, rfl⟩; exact ⟨rest, rfl, rfl⟩
    · rintro ⟨rest', h', rfl⟩
      obtain ⟨rfl, h2⟩ := List.append_inj' h' rfl
      simp only [List.cons.injEq, and_true] at h2
      exact ⟨h2, rfl⟩

/-- Pop fails exactly on the empty stack (R28). -/
theorem State.pop?_eq_none_iff : s.pop? = none ↔ s.stack = [] := by
  unfold State.pop?
  cases h : s.stack.getLast? with
  | none => simpa using h
  | some w =>
    obtain ⟨rest, hr⟩ := List.getLast?_eq_some_iff.mp h
    simp [hr]

/-! ### Memory -/

/-- Read after write in a state (R52). -/
theorem State.read_write (a a' : Nat) (b : Byte) :
    (s.write a b).read a' = if a' % 4096 = a % 4096 then b else s.read a' := Memory.read_write _ _ _ _

theorem State.read_mod (a : Nat) : s.read (a % 4096) = s.read a := Memory.read_mod _ _

theorem State.effAddr_lt (k : Nat) : s.effAddr k < 4096 := Nat.mod_lt _ (by decide)

@[simp] theorem State.effAddr_mod (k : Nat) : s.effAddr k % 4096 = s.effAddr k := Nat.mod_mod _ _

/-- Offsets below 4096 give different addresses (R174). -/
theorem State.effAddr_inj {j k : Nat} (hj : j < 4096) (hk : k < 4096) : s.effAddr j = s.effAddr k ↔ j = k := by
  unfold State.effAddr; omega

theorem State.length_bytesAtI (n : Nat) : (s.bytesAtI n).length = n := by simp [State.bytesAtI]

theorem State.getElem?_bytesAtI (n j : Nat) (row : Byte) :
    (s.bytesAtI n)[j]? = some row ↔ j < n ∧ row = s.read (s.effAddr j) := by
  simp only [State.bytesAtI, List.getElem?_map, Option.map_eq_some_iff, List.getElem?_eq_some_iff,
    List.length_range, List.getElem_range]
  constructor
  · rintro ⟨k, ⟨h, rfl⟩, rfl⟩; exact ⟨h, rfl⟩
  · rintro ⟨h, rfl⟩; exact ⟨j, ⟨h, rfl⟩, rfl⟩

/-! ### The V0..Vx transfers -/

theorem regIdx_toNat {k : Nat} (h : k < 16) : (regIdx k).toNat = k := by simp [regIdx, Nat.mod_eq_of_lt h]

theorem regIdx_eq_iff {k : Nat} (h : k < 16) (x : Nibble) : x = regIdx k ↔ x.toNat = k := by
  rw [← BitVec.toNat_inj, regIdx_toNat h]

theorem State.storeRegs_succ (n : Nat) :
    s.storeRegs (n + 1) = (s.storeRegs n).write (s.effAddr n) (s.reg (regIdx n)) := by
  simp [State.storeRegs, List.range_succ]

theorem State.loadRegs_succ (n : Nat) :
    s.loadRegs (n + 1) = (s.loadRegs n).setReg (regIdx n) (s.read (s.effAddr n)) := by
  simp [State.loadRegs, List.range_succ]

/-- Storing registers changes memory alone. -/
theorem State.storeRegs_eq (n : Nat) : s.storeRegs n = s.setMem (s.storeRegs n).mem := by
  induction n with
  | zero => rfl
  | succ n ih => rw [State.storeRegs_succ, ih]; rfl

/-- Loading registers changes the register file alone. -/
theorem State.loadRegs_eq (n : Nat) : s.loadRegs n = { s with V := (s.loadRegs n).V } := by
  induction n with
  | zero => rfl
  | succ n ih => rw [State.loadRegs_succ, ih]; rfl

/-- The bytes of the range are written, in place. -/
theorem State.storeRegs_read_in {n k : Nat} (hn : n ≤ 16) (hk : k < n) :
    (s.storeRegs n).read (s.effAddr k) = s.reg (regIdx k) := by
  induction n with
  | zero => omega
  | succ n ih =>
    rw [State.storeRegs_succ, State.read_write, State.effAddr_mod, State.effAddr_mod]
    by_cases h : k = n
    · subst h; simp
    · rw [if_neg (by rw [State.effAddr_inj] <;> omega), ih (by omega) (by omega)]

/-- Every other byte is as before. -/
theorem State.storeRegs_read_out {n a : Nat} (h : ∀ k, k < n → a % 4096 ≠ s.effAddr k) :
    (s.storeRegs n).read a = s.read a := by
  induction n with
  | zero => rfl
  | succ n ih =>
    rw [State.storeRegs_succ, State.read_write, State.effAddr_mod, if_neg (h n (by omega)),
      ih fun k hk => h k (by omega)]

/-- The registers of the range hold the bytes, every other register is as before. -/
theorem State.loadRegs_reg {n : Nat} (hn : n ≤ 16) (x : Nibble) : (s.loadRegs n).reg x =
    if x.toNat < n then s.read (s.effAddr x.toNat) else s.reg x := by
  induction n with
  | zero => rfl
  | succ n ih =>
    rw [State.loadRegs_succ, State.reg_setReg, ih (by omega)]
    simp only [regIdx_eq_iff (show n < 16 by omega)]
    by_cases h : x.toNat = n
    · simp [h]
    · rw [if_neg h]
      by_cases h' : x.toNat < n
      · rw [if_pos h', if_pos (by omega)]
      · rw [if_neg h', if_neg (by omega)]

theorem State.storeRegs_wf (h : Memory.wf s.mem = true) (n : Nat) : Memory.wf (s.storeRegs n).mem = true := by
  induction n with
  | zero => exact h
  | succ n ih => rw [State.storeRegs_succ]; exact Memory.wf_write ih _ _

/-! ### Keys -/

theorem State.keyDown_iff (k : Nat) : s.keyDown k = true ↔ k ≤ 15 ∧ s.keys.getLsbD k = true := by
  simp [State.keyDown]

/-- No key is chosen exactly where none is pressed. -/
theorem State.chosenKey?_eq_none_iff : s.chosenKey? = none ↔ ∀ k, k < 16 → s.keys.getLsbD k = false := by
  simp [State.chosenKey?, List.find?_eq_none]

/-- No key is pressed exactly where the snapshot is zero. -/
theorem State.chosenKey?_eq_none_iff_zero : s.chosenKey? = none ↔ s.keys = 0 := by
  rw [State.chosenKey?_eq_none_iff]
  constructor
  · intro h; exact BitVec.eq_of_getLsbD_eq fun k hk => by simp [h k hk]
  · intro h; simp [h]

/-- The key chosen is the lowest one pressed (R207). -/
theorem State.chosenKey?_eq_some_iff (b : Byte) : s.chosenKey? = some b ↔
    ∃ k, k < 16 ∧ b = BitVec.ofNat 8 k ∧ s.keys.getLsbD k = true ∧ ∀ j, j < k → s.keys.getLsbD j = false := by
  simp only [State.chosenKey?, Option.map_eq_some_iff, List.find?_range_eq_some, Bool.not_eq_true']
  constructor
  · rintro ⟨k, ⟨hk, hlt, hj⟩, rfl⟩; exact ⟨k, by simpa using hlt, rfl, hk, hj⟩
  · rintro ⟨k, hlt, rfl, hk, hj⟩; exact ⟨k, ⟨hk, by simpa using hlt, hj⟩, rfl⟩

/-- The resume with a key: the register KW binds gets it, the wait ends, PC moves on (R204). -/
theorem State.resumeKeyWait_some {b : Byte} (h : s.chosenKey? = some b) :
    s.resumeKeyWait = ((s.setReg s.KW.x b).setKW ⟨false, s.KW.x⟩).adv 2 := by simp [State.resumeKeyWait, h]

/-- The resume without a key writes nothing (R204). -/
theorem State.resumeKeyWait_none (h : s.chosenKey? = none) : s.resumeKeyWait = s := by simp [State.resumeKeyWait, h]

/-! ### Operations -/

theorem State.takeOp_cons {op : DriverOp} {rest : List DriverOp} (h : s.pending = op :: rest) :
    s.takeOp = (op, { s with pending := rest }) := by simp [State.takeOp, h]

theorem State.takeOp_nil (h : s.pending = []) :
    s.takeOp = (.step (Config.keysAt s.draws) (Config.rndAt s.draws), { s with draws := s.draws + 1 }) := by
  simp [State.takeOp, h]

/-- Taking the next operation leaves the engine alone. -/
theorem State.takeOp_engine : s.takeOp.2.toEngine = s.toEngine := by
  unfold State.takeOp; split <;> rfl

theorem loadResult_loaded_iff (image : List Byte) : loadResult image = .loaded ↔ image.length ≤ maxImage := by
  unfold loadResult; split
  · next h => simp; omega
  · next h => simp; omega

/-- An accepted image is in memory and nothing else changed (R253). -/
theorem State.loadImage_of_fits {image : List Byte} (h : image.length ≤ maxImage) :
    s.loadImage image = s.setMem (Memory.writeBytes s.mem progBase image) := by
  simp [State.loadImage, (loadResult_loaded_iff image).mpr h]

/-- A refused image changes nothing (R254). -/
theorem State.loadImage_of_tooLarge {image : List Byte} (h : maxImage < image.length) : s.loadImage image = s := by
  simp [State.loadImage, loadResult, h]

theorem State.loadImage_wf (h : Memory.wf s.mem = true) (image : List Byte) :
    Memory.wf (s.loadImage image).mem = true := by
  unfold State.loadImage
  split
  · exact Memory.wf_writeBytes _ _ h
  · exact h

end Sys2Proof.Machine
end

