-- ==== Sys2Proof/Laws/Exec.lean ====
section
/-! SUPPORT. What an instruction's meaning and a step can do, said once: the three meanings with more than one outcome,
the outcomes of exec, and the operation a step performs. -/

namespace Sys2Proof.Machine

/-- A CALL that completes had room on the stack (R113). -/
theorem execCall_next {nnn : Addr} {s t : State} (h : execCall nnn s = .next t) :
    s.stack.length < stackDepth ∧ t = (s.setStack (s.stack ++ [s.pc + 2])).setPc (zextAddr nnn) := by
  unfold execCall at h
  cases hp : s.push? (s.pc + 2) with
  | none => rw [hp] at h; cases h
  | some w =>
    rw [hp] at h
    obtain ⟨room, rfl⟩ := s.push?_eq_some_iff.mp hp
    cases h
    exact ⟨room, rfl⟩

/-- A RET that completes had an entry to pop (R111). -/
theorem execRet_next {c b : Nibble} {s t : State} (h : execRet c b s = .next t) :
    ∃ rest v, s.stack = rest ++ [v] ∧ t = (s.setStack rest).setPc v := by
  unfold execRet at h
  cases hp : s.pop? with
  | none => rw [hp] at h; cases h
  | some w =>
    obtain ⟨v, w⟩ := w
    rw [hp] at h
    obtain ⟨rest, hs, rfl⟩ := s.pop?_eq_some_iff.mp hp
    cases h
    exact ⟨rest, v, hs, rfl⟩

/-- FX0A takes a key or enters the wait (R203). -/
theorem execLdVxK_next {x : Nibble} {s t : State} (h : execLdVxK x s = .next t) :
    (∃ key, s.chosenKey? = some key ∧ t = (s.setReg x key).adv 2) ∨
      (s.chosenKey? = none ∧ t = s.setKW ⟨true, x⟩) := by
  unfold execLdVxK at h
  cases hp : s.chosenKey? with
  | none => rw [hp] at h; cases h; exact .inr ⟨rfl, rfl⟩
  | some key => rw [hp] at h; cases h; exact .inl ⟨key, rfl, rfl⟩

/-- Every outcome of exec: a next state, or one of the two faults of R220. -/
theorem exec_outcome (i : Instr) (s : State) : (∃ t, exec i s = .next t) ∨
    (∃ nnn, i = .call nnn ∧ stackDepth ≤ s.stack.length ∧ exec i s = .fault (.stackOverflow (encode i) s.pc)) ∨
    (∃ c b, i = .ret c b ∧ s.stack = [] ∧ exec i s = .fault (.stackUnderflow (encode i) s.pc)) := by
  cases i
  case call nnn =>
    cases h : s.push? (s.pc + 2) with
    | none => exact .inr (.inl ⟨nnn, rfl, s.push?_eq_none_iff.mp h, by simp only [exec, execCall, h, raise]⟩)
    | some t => exact .inl ⟨_, by simp only [exec, execCall, h]; rfl⟩
  case ret c b =>
    cases h : s.pop? with
    | none => exact .inr (.inr ⟨c, b, rfl, s.pop?_eq_none_iff.mp h, by simp only [exec, execRet, h, raise]⟩)
    | some t => exact .inl ⟨_, by simp only [exec, execRet, h]; rfl⟩
  all_goals exact .inl ⟨_, rfl⟩

/-- STEP resumes a pending wait or runs the decoded instruction (R85). -/
theorem stepOp_eq (keys : Word) (rnd : Byte) (s : State) : stepOp keys rnd s =
    if s.KW.valid then .next (s.sample keys rnd).resumeKeyWait else exec (decode s.fetch) (s.sample keys rnd) := rfl

/-- A step performs the operation at the front of the schedule. -/
theorem step_cons {s : State} {op : DriverOp} {rest : List DriverOp} (h : s.pending = op :: rest) :
    step s = perform op { s with pending := rest } := by simp only [step, s.takeOp_cons h]

/-- With an empty schedule a step is a STEP with the next free samples. -/
theorem step_nil {s : State} (h : s.pending = []) :
    step s = stepOp (Config.keysAt s.draws) (Config.rndAt s.draws) { s with draws := s.draws + 1 } := by
  simp only [step, s.takeOp_nil h, perform]

/-! ### Frames -/

theorem ChangesOnly.rfl' (s : State) : ChangesOnly s s [] :=
  ⟨fun p _ => by cases p <;> first | exact fun _ => rfl | rfl, rfl, rfl, rfl, rfl⟩

/-- Two changes in a row change at most what either does. -/
theorem ChangesOnly.trans {s t u : State} {ps qs : List Part} (h : ChangesOnly s t ps) (h' : ChangesOnly t u qs) :
    ChangesOnly s u (ps ++ qs) := by
  obtain ⟨hp, h1, h2, h3, h4⟩ := h
  obtain ⟨hq, h1', h2', h3', h4'⟩ := h'
  refine ⟨fun p hn => ?_, h1'.trans h1, h2'.trans h2, h3'.trans h3, h4'.trans h4⟩
  rw [List.mem_append, not_or] at hn
  have a := hp p hn.1
  have b := hq p hn.2
  cases p
  case byte addr => exact fun lt => (b lt).trans (a lt)
  all_goals exact Eq.trans b a

/-- A longer list of parts says less. -/
theorem ChangesOnly.mono {s t : State} {ps qs : List Part} (h : ChangesOnly s t ps) (sub : ∀ p, p ∈ ps → p ∈ qs) :
    ChangesOnly s t qs := ⟨fun p hn => h.1 p fun hp => hn (sub p hp), h.2⟩

theorem changesOnly_setPc (s : State) (w : Word) : ChangesOnly s (s.setPc w) [] := ChangesOnly.rfl' s
theorem changesOnly_adv (s : State) (k : Word) : ChangesOnly s (s.adv k) [] := ChangesOnly.rfl' s
theorem changesOnly_skipIf (s : State) (c : Bool) : ChangesOnly s (s.skipIf c) [] := by
  cases c <;> exact ChangesOnly.rfl' s

theorem changesOnly_setReg (s : State) (x : Nibble) (b : Byte) : ChangesOnly s (s.setReg x b) [.reg x] := by
  refine ⟨fun p hn => ?_, rfl, rfl, rfl, rfl⟩
  cases p
  case reg y => exact (s.reg_setReg x y b).trans (if_neg fun e => hn (by simp [e]))
  case byte => exact fun _ => rfl
  all_goals rfl

theorem changesOnly_setFlag (s : State) (f : Bool) : ChangesOnly s (s.setFlag f) [.reg regVF] :=
  changesOnly_setReg s _ _

theorem changesOnly_setRegThenFlag (s : State) (x : Nibble) (b : Byte) (f : Bool) :
    ChangesOnly s (s.setRegThenFlag x b f) [.reg x, .reg regVF] :=
  (changesOnly_setReg s x b).trans (changesOnly_setFlag _ f)

theorem changesOnly_setI (s : State) (w : Word) : ChangesOnly s (s.setI w) [.I] := by
  refine ⟨fun p hn => ?_, rfl, rfl, rfl, rfl⟩
  cases p
  case I => exact absurd (by simp) hn
  case byte => exact fun _ => rfl
  all_goals rfl

theorem changesOnly_setDT (s : State) (b : Byte) : ChangesOnly s (s.setDT b) [.DT] := by
  refine ⟨fun p hn => ?_, rfl, rfl, rfl, rfl⟩
  cases p
  case DT => exact absurd (by simp) hn
  case byte => exact fun _ => rfl
  all_goals rfl

theorem changesOnly_setST (s : State) (b : Byte) : ChangesOnly s (s.setST b) [.ST] := by
  refine ⟨fun p hn => ?_, rfl, rfl, rfl, rfl⟩
  cases p
  case ST => exact absurd (by simp) hn
  case byte => exact fun _ => rfl
  all_goals rfl

theorem changesOnly_setKW (s : State) (kw : KeyWait) : ChangesOnly s (s.setKW kw) [.KW] := by
  refine ⟨fun p hn => ?_, rfl, rfl, rfl, rfl⟩
  cases p
  case KW => exact absurd (by simp) hn
  case byte => exact fun _ => rfl
  all_goals rfl

theorem changesOnly_setStack (s : State) (st : List Word) : ChangesOnly s (s.setStack st) [.stack] := by
  refine ⟨fun p hn => ?_, rfl, rfl, rfl, rfl⟩
  cases p
  case stack => exact absurd (by simp) hn
  case byte => exact fun _ => rfl
  all_goals rfl

theorem changesOnly_setDisp (s : State) (d : Disp) : ChangesOnly s (s.setDisp d) [.disp] := by
  refine ⟨fun p hn => ?_, rfl, rfl, rfl, rfl⟩
  cases p
  case disp => exact absurd (by simp) hn
  case byte => exact fun _ => rfl
  all_goals rfl

theorem changesOnly_write (s : State) (a : Nat) (b : Byte) : ChangesOnly s (s.write a b) [.byte (a % 4096)] := by
  refine ⟨fun p hn => ?_, rfl, rfl, rfl, rfl⟩
  cases p
  case byte addr =>
    intro lt
    exact (s.read_write a addr b).trans (if_neg fun e => hn (by simp [← e, Nat.mod_eq_of_lt lt]))
  all_goals rfl

/-- The range stored is all that FX55's loop changes. -/
theorem changesOnly_storeRegs (s : State) (n : Nat) : ChangesOnly s (s.storeRegs n) (bytesFromI s n) := by
  rw [s.storeRegs_eq]
  refine ⟨fun p hn => ?_, rfl, rfl, rfl, rfl⟩
  cases p
  case byte addr =>
    intro lt
    have : (s.storeRegs n).read addr = s.read addr := s.storeRegs_read_out fun k hk e => hn (by
      rw [bytesFromI, List.mem_map]
      exact ⟨k, List.mem_range.mpr hk, by rw [← e, Nat.mod_eq_of_lt lt]⟩)
    exact this
  all_goals rfl

/-- The range loaded is all that FX65's loop changes. -/
theorem changesOnly_loadRegs (s : State) {n : Nat} (h : n ≤ 16) :
    ChangesOnly s (s.loadRegs n) ((List.range n).map fun k => .reg (BitVec.ofNat 4 k)) := by
  have regs := fun x => s.loadRegs_reg h x
  rw [s.loadRegs_eq] at *
  refine ⟨fun p hn => ?_, rfl, rfl, rfl, rfl⟩
  cases p
  case reg x =>
    refine (regs x).trans (if_neg fun lt => hn ?_)
    rw [List.mem_map]
    exact ⟨x.toNat, List.mem_range.mpr lt, by simp⟩
  case byte => exact fun _ => rfl
  all_goals rfl

end Sys2Proof.Machine
end

