-- ==== Sys2Proof/Laws/PerInstr.lean ====
section
/-! SUPPORT. Statements about every instruction as syntax, one lemma per constructor. -/

namespace Sys2Proof.Laws

/-- The instruction's word matches the row of spec/opcode_table.json its constructor stands for (R99). -/
def RowMatch.Statement (i : Instr) : Prop := i.row.covers (encode i) = true

/-- A nibble of ones masks nothing. -/
theorem nibble_and_ones (n : Nibble) : n &&& 15#4 = n := BitVec.and_allOnes

/-- A word `dcba` matches a row with mask 0xF000 by its first nibble alone. -/
theorem covers_d (d c b a : Nibble) (p : Nat) :
    TableRow.covers ⟨ofNibbles d 0 0 0, 0xF000, p⟩ (ofNibbles d c b a) = true := by
  rw [TableRow.covers, show (0xF000 : Word) = ofNibbles 0xF 0 0 0 by decide, ofNibbles_and]
  simp [nibble_and_ones]

/-- A word `dcba` matches a row with mask 0xF00F by its first and last nibbles. -/
theorem covers_da (d c b a : Nibble) (p : Nat) :
    TableRow.covers ⟨ofNibbles d 0 0 a, 0xF00F, p⟩ (ofNibbles d c b a) = true := by
  rw [TableRow.covers, show (0xF00F : Word) = ofNibbles 0xF 0 0 0xF by decide, ofNibbles_and]
  simp [nibble_and_ones]

/-- A word `dcba` matches a row with mask 0xF0FF by all nibbles but the second. -/
theorem covers_dba (d c b a : Nibble) (p : Nat) :
    TableRow.covers ⟨ofNibbles d 0 b a, 0xF0FF, p⟩ (ofNibbles d c b a) = true := by
  rw [TableRow.covers, show (0xF0FF : Word) = ofNibbles 0xF 0 0xF 0xF by decide, ofNibbles_and]
  simp [nibble_and_ones]

theorem RowMatch.cls (ignC ignB : Nibble) : RowMatch.Statement (.cls ignC ignB) :=
  covers_da 0 _ _ 0 1

theorem RowMatch.ret (ignC ignB : Nibble) : RowMatch.Statement (.ret ignC ignB) :=
  covers_da 0 _ _ 14 1

theorem RowMatch.sys (nnn : Addr) : RowMatch.Statement (.sys nnn) :=
  covers_d 0 _ _ _ 2

theorem RowMatch.jp (nnn : Addr) : RowMatch.Statement (.jp nnn) :=
  covers_d 1 _ _ _ 1

theorem RowMatch.call (nnn : Addr) : RowMatch.Statement (.call nnn) :=
  covers_d 2 _ _ _ 1

theorem RowMatch.seByte (x : Nibble) (kk : Byte) : RowMatch.Statement (.seByte x kk) :=
  covers_d 3 _ _ _ 1

theorem RowMatch.sneByte (x : Nibble) (kk : Byte) : RowMatch.Statement (.sneByte x kk) :=
  covers_d 4 _ _ _ 1

theorem RowMatch.seReg (x y ignN : Nibble) : RowMatch.Statement (.seReg x y ignN) :=
  covers_d 5 _ _ _ 1

theorem RowMatch.ldByte (x : Nibble) (kk : Byte) : RowMatch.Statement (.ldByte x kk) :=
  covers_d 6 _ _ _ 1

theorem RowMatch.addByte (x : Nibble) (kk : Byte) : RowMatch.Statement (.addByte x kk) :=
  covers_d 7 _ _ _ 1

theorem RowMatch.ldReg (x y : Nibble) : RowMatch.Statement (.ldReg x y) :=
  covers_da 8 _ _ 0 1

theorem RowMatch.or (x y : Nibble) : RowMatch.Statement (.or x y) :=
  covers_da 8 _ _ 1 1

theorem RowMatch.and (x y : Nibble) : RowMatch.Statement (.and x y) :=
  covers_da 8 _ _ 2 1

theorem RowMatch.xor (x y : Nibble) : RowMatch.Statement (.xor x y) :=
  covers_da 8 _ _ 3 1

theorem RowMatch.addReg (x y : Nibble) : RowMatch.Statement (.addReg x y) :=
  covers_da 8 _ _ 4 1

theorem RowMatch.sub (x y : Nibble) : RowMatch.Statement (.sub x y) :=
  covers_da 8 _ _ 5 1

theorem RowMatch.shr (x y : Nibble) : RowMatch.Statement (.shr x y) :=
  covers_da 8 _ _ 6 1

theorem RowMatch.subn (x y : Nibble) : RowMatch.Statement (.subn x y) :=
  covers_da 8 _ _ 7 1

theorem RowMatch.shl (x y : Nibble) : RowMatch.Statement (.shl x y) :=
  covers_da 8 _ _ 14 1

theorem RowMatch.unassigned88 (ignX ignY : Nibble) : RowMatch.Statement (.unassigned88 ignX ignY) :=
  covers_da 8 _ _ 8 1

theorem RowMatch.unassigned89 (ignX ignY : Nibble) : RowMatch.Statement (.unassigned89 ignX ignY) :=
  covers_da 8 _ _ 9 1

theorem RowMatch.unassigned8A (ignX ignY : Nibble) : RowMatch.Statement (.unassigned8A ignX ignY) :=
  covers_da 8 _ _ 10 1

theorem RowMatch.unassigned8B (ignX ignY : Nibble) : RowMatch.Statement (.unassigned8B ignX ignY) :=
  covers_da 8 _ _ 11 1

theorem RowMatch.unassigned8C (ignX ignY : Nibble) : RowMatch.Statement (.unassigned8C ignX ignY) :=
  covers_da 8 _ _ 12 1

theorem RowMatch.unassigned8D (ignX ignY : Nibble) : RowMatch.Statement (.unassigned8D ignX ignY) :=
  covers_da 8 _ _ 13 1

theorem RowMatch.unassigned8F (ignX ignY : Nibble) : RowMatch.Statement (.unassigned8F ignX ignY) :=
  covers_da 8 _ _ 15 1

theorem RowMatch.sneReg (x y ignN : Nibble) : RowMatch.Statement (.sneReg x y ignN) :=
  covers_d 9 _ _ _ 1

theorem RowMatch.ldI (nnn : Addr) : RowMatch.Statement (.ldI nnn) :=
  covers_d 10 _ _ _ 1

theorem RowMatch.jpV0 (nnn : Addr) : RowMatch.Statement (.jpV0 nnn) :=
  covers_d 11 _ _ _ 1

theorem RowMatch.rnd (x : Nibble) (kk : Byte) : RowMatch.Statement (.rnd x kk) :=
  covers_d 12 _ _ _ 1

theorem RowMatch.drw (x y n : Nibble) : RowMatch.Statement (.drw x y n) :=
  covers_d 13 _ _ _ 1

theorem RowMatch.skp (x ignB : Nibble) : RowMatch.Statement (.skp x ignB) :=
  covers_da 14 _ _ 14 1

theorem RowMatch.sknp (x ignB : Nibble) : RowMatch.Statement (.sknp x ignB) :=
  covers_da 14 _ _ 1 1

theorem RowMatch.unassignedE (ignX ignB a : Nibble) : RowMatch.Statement (.unassignedE ignX ignB a) :=
  covers_d 14 _ _ _ 2

theorem RowMatch.ldVxDT (x : Nibble) : RowMatch.Statement (.ldVxDT x) :=
  covers_dba 15 _ 0 7 1

theorem RowMatch.ldVxK (x : Nibble) : RowMatch.Statement (.ldVxK x) :=
  covers_dba 15 _ 0 10 1

theorem RowMatch.ldDTVx (x : Nibble) : RowMatch.Statement (.ldDTVx x) :=
  covers_dba 15 _ 1 5 1

theorem RowMatch.ldSTVx (x : Nibble) : RowMatch.Statement (.ldSTVx x) :=
  covers_dba 15 _ 1 8 1

theorem RowMatch.addI (x : Nibble) : RowMatch.Statement (.addI x) :=
  covers_dba 15 _ 1 14 1

theorem RowMatch.ldF (x : Nibble) : RowMatch.Statement (.ldF x) :=
  covers_dba 15 _ 2 9 1

theorem RowMatch.ldB (x : Nibble) : RowMatch.Statement (.ldB x) :=
  covers_dba 15 _ 3 3 1

theorem RowMatch.ldMemVx (x : Nibble) : RowMatch.Statement (.ldMemVx x) :=
  covers_dba 15 _ 5 5 1

theorem RowMatch.ldVxMem (x : Nibble) : RowMatch.Statement (.ldVxMem x) :=
  covers_dba 15 _ 6 5 1

theorem RowMatch.unassignedF (ignX : Nibble) (kk : Byte) : RowMatch.Statement (.unassignedF ignX kk) :=
  covers_d 15 _ _ _ 2

end Sys2Proof.Laws
end

