-- ==== Sys2Proof/Tests/Slice0.lean ====
section
/-! SUPPORT. Tests of the model. The expected results are the spec's own: the words of R97, the worked examples W1 to
W11 and the vectors T1 to T138 of spec/95_test_vectors.md (each test names its vector). The last section shows, for
every statement with hypotheses, a state and operands that meet them. -/

set_option Elab.async false

namespace Sys2Proof.Tests

open Sys2Proof Sys2Proof.Machine

/-! ## Helpers -/

/-- What a test looks at in the next state, if there is one. -/
def after {α : Type} (o : Host.Outcome State Fault Refusal) (look : State → α) : Option α :=
  match o with
  | .next t => some (look t)
  | .fault _ => none
  | .refused _ => none

/-- The fault an outcome ends in, if it does. -/
def faultOf (o : Host.Outcome State Fault Refusal) : Option Fault :=
  match o with
  | .next _ => none
  | .fault f => some f
  | .refused _ => none

/-- One STEP with the given word at PC. -/
def stepWord (s : State) (w : Nat) : Host.Outcome State Fault Refusal := step (s.withFetchWord 16 w)

/-- One STEP with the given word at PC and the given inputs. -/
def stepWith (keys : Word) (rnd : Byte) (s : State) (w : Nat) : Host.Outcome State Fault Refusal :=
  stepWord (s.sample keys rnd) w

/-- The RESET state with V0, V1 and VF set. -/
def withV (v0 v1 vf : Byte) : State := ((State.reset.setReg 0x0 v0).setReg 0x1 v1).setReg 0xF vf

/-- The RESET state with I at 0x300 and bytes stored from there on. -/
def withBytes (bytes : List Byte) : State := (State.reset.setMem (Memory.writeBytes [] 0x300 bytes)).setI 0x300

/-- The surface on which just these cells, given as (x, y), are on. -/
def lit (cells : List (Nat × Nat)) : Disp := cells.foldl (fun d c => d.toggle c.1 c.2) Disp.blank

/-! ## WellFormed refuses what no word encodes -/

theorem test_wellFormed_sys : (Instr.sys 0x120).wellFormed = false ∧ (Instr.sys 0x0EE).wellFormed = false ∧
    (Instr.sys 0x123).wellFormed = true := by decide
theorem test_wellFormed_unassignedE : (Instr.unassignedE 0x2 0x9 0xE).wellFormed = false ∧
    (Instr.unassignedE 0x2 0xA 0x1).wellFormed = false ∧ (Instr.unassignedE 0x2 0xA 0x2).wellFormed = true := by decide
theorem test_wellFormed_unassignedF :
    (∀ kk ∈ ([0x07, 0x0A, 0x15, 0x18, 0x1E, 0x29, 0x33, 0x55, 0x65] : List Byte),
      (Instr.unassignedF 0x3 kk).wellFormed = false) ∧ (Instr.unassignedF 0x3 0xFF).wellFormed = true := by decide

/-! ## Decoding: every constructor from a word of its pattern in R97 -/

theorem test_decode_family0 : decodeTableWord 16 0x00E0 = some (.cls 0x0 0xE) ∧
    decodeTableWord 16 0x00EE = some (.ret 0x0 0xE) ∧ decodeTableWord 16 0x0123 = some (.sys 0x123) := by decide
theorem test_decode_families1to7 : decodeTableWord 16 0x1234 = some (.jp 0x234) ∧
    decodeTableWord 16 0x2345 = some (.call 0x345) ∧ decodeTableWord 16 0x3A42 = some (.seByte 0xA 0x42) ∧
    decodeTableWord 16 0x4B31 = some (.sneByte 0xB 0x31) ∧ decodeTableWord 16 0x5120 = some (.seReg 0x1 0x2 0x0) ∧
    decodeTableWord 16 0x6C05 = some (.ldByte 0xC 0x05) ∧ decodeTableWord 16 0x7D0A = some (.addByte 0xD 0x0A) := by
  decide
theorem test_decode_family8 : decodeTableWord 16 0x8120 = some (.ldReg 0x1 0x2) ∧
    decodeTableWord 16 0x8121 = some (.or 0x1 0x2) ∧ decodeTableWord 16 0x8122 = some (.and 0x1 0x2) ∧
    decodeTableWord 16 0x8123 = some (.xor 0x1 0x2) ∧ decodeTableWord 16 0x8124 = some (.addReg 0x1 0x2) ∧
    decodeTableWord 16 0x8125 = some (.sub 0x1 0x2) ∧ decodeTableWord 16 0x8126 = some (.shr 0x1 0x2) ∧
    decodeTableWord 16 0x8127 = some (.subn 0x1 0x2) ∧ decodeTableWord 16 0x812E = some (.shl 0x1 0x2) := by decide
theorem test_decode_family8_unassigned : decodeTableWord 16 0x8128 = some (.unassigned88 0x1 0x2) ∧
    decodeTableWord 16 0x8129 = some (.unassigned89 0x1 0x2) ∧ decodeTableWord 16 0x812A = some (.unassigned8A 0x1 0x2) ∧
    decodeTableWord 16 0x812B = some (.unassigned8B 0x1 0x2) ∧ decodeTableWord 16 0x812C = some (.unassigned8C 0x1 0x2) ∧
    decodeTableWord 16 0x812D = some (.unassigned8D 0x1 0x2) ∧
    decodeTableWord 16 0x812F = some (.unassigned8F 0x1 0x2) := by decide
theorem test_decode_families9toD : decodeTableWord 16 0x9120 = some (.sneReg 0x1 0x2 0x0) ∧
    decodeTableWord 16 0xA2F0 = some (.ldI 0x2F0) ∧ decodeTableWord 16 0xB301 = some (.jpV0 0x301) ∧
    decodeTableWord 16 0xC30F = some (.rnd 0x3 0x0F) ∧ decodeTableWord 16 0xD125 = some (.drw 0x1 0x2 0x5) := by decide
theorem test_decode_familyE : decodeTableWord 16 0xE29E = some (.skp 0x2 0x9) ∧
    decodeTableWord 16 0xE2A1 = some (.sknp 0x2 0xA) ∧ decodeTableWord 16 0xE3A2 = some (.unassignedE 0x3 0xA 0x2) := by
  decide
theorem test_decode_familyF : decodeTableWord 16 0xF307 = some (.ldVxDT 0x3) ∧
    decodeTableWord 16 0xF50A = some (.ldVxK 0x5) ∧ decodeTableWord 16 0xF315 = some (.ldDTVx 0x3) ∧
    decodeTableWord 16 0xF318 = some (.ldSTVx 0x3) ∧ decodeTableWord 16 0xF11E = some (.addI 0x1) ∧
    decodeTableWord 16 0xF429 = some (.ldF 0x4) ∧ decodeTableWord 16 0xF533 = some (.ldB 0x5) ∧
    decodeTableWord 16 0xF255 = some (.ldMemVx 0x2) ∧ decodeTableWord 16 0xF265 = some (.ldVxMem 0x2) ∧
    decodeTableWord 16 0xF4FF = some (.unassignedF 0x4 0xFF) := by decide

/-! ## Control flow -/

/-- T1. -/
theorem test_sys : after (stepWord State.reset 0x0123) id =
    some (((State.reset.write 0x200 0x01).write 0x201 0x23).setPc 0x202) := by decide +kernel
/-- T2. -/
theorem test_ret : after (stepWord ((State.reset.setStack [0x0202]).setPc 0x300) 0x00EE) (fun t => (t.pc, t.stack)) =
    some (0x202, []) := by decide +kernel
/-- T125: an alias word is reported as fetched. -/
theorem test_ret_empty : faultOf (stepWord State.reset 0x01AE) = some (.stackUnderflow 0x01AE 0x0200) := by decide +kernel
/-- T4. -/
theorem test_jp : after (stepWord State.reset 0x1234) (fun t => t.pc) = some 0x234 := by decide +kernel
/-- T8: the return address wraps. -/
theorem test_call : after (stepWord ((State.reset.setStack [0x0300]).setPc 0xFFFE) 0x2400) (fun t => (t.pc, t.stack)) =
    some (0x400, [0x0300, 0x0000]) := by decide +kernel
/-- T10. -/
theorem test_call_full : faultOf (stepWord (State.reset.setStack (List.replicate 16 0x0300)) 0x2400) =
    some (.stackOverflow 0x2400 0x0200) := by decide +kernel
/-- T11 and W7. -/
theorem test_seByte : after (stepWord (State.reset.setReg 0x3 0x42) 0x3342) (fun t => t.pc) = some 0x204 ∧
    after (stepWord (State.reset.setReg 0x3 0x41) 0x3342) (fun t => t.pc) = some 0x202 := by decide +kernel
/-- T13, T14. -/
theorem test_sneByte : after (stepWord (State.reset.setReg 0x3 0x41) 0x4342) (fun t => t.pc) = some 0x204 ∧
    after (stepWord (State.reset.setReg 0x3 0x42) 0x4342) (fun t => t.pc) = some 0x202 := by decide +kernel
/-- T17 (an alias word). -/
theorem test_seReg : after (stepWord ((State.reset.setReg 0x1 4).setReg 0x2 4) 0x5121) (fun t => t.pc) = some 0x204 := by
  decide +kernel
/-- T18, T20. -/
theorem test_sneReg : after (stepWord ((State.reset.setReg 0x1 7).setReg 0x2 8) 0x9120) (fun t => t.pc) = some 0x204 ∧
    after (stepWord ((State.reset.setReg 0x1 4).setReg 0x2 4) 0x912F) (fun t => t.pc) = some 0x202 := by decide +kernel
/-- T22. -/
theorem test_jpV0 : after (stepWord (State.reset.setReg 0x0 0xFF) 0xBFFF) (fun t => t.pc) = some 0x10FE := by decide +kernel

/-! ## Registers and arithmetic -/

/-- T31. -/
theorem test_ldByte : after (stepWord State.reset 0x6FAA) (fun t => t.reg 0xF) = some 0xAA := by decide +kernel
/-- W1. -/
theorem test_addByte : after (stepWord (withV 250 0 0x77) 0x700A) (fun t => (t.reg 0x0, t.reg 0xF, t.pc)) =
    some (4, 0x77, 0x202) := by decide +kernel
/-- T34. -/
theorem test_ldReg : after (stepWord (withV 0 0x37 0) 0x8010) (fun t => (t.reg 0x0, t.reg 0x1)) = some (0x37, 0x37) := by
  decide +kernel
/-- T35, T36. -/
theorem test_or : after (stepWord (withV 0x0F 0xF0 0) 0x8011) (fun t => (t.reg 0x0, t.reg 0xF)) = some (0xFF, 0) ∧
    after (stepWord (withV 0xF0 0 1) 0x8F01) (fun t => t.reg 0xF) = some 0xF1 := by decide +kernel
/-- T37. -/
theorem test_and : after (stepWord (withV 0x3C 0x0F 0) 0x8012) (fun t => t.reg 0x0) = some 0x0C := by decide +kernel
/-- T38. -/
theorem test_xor : after (stepWord (withV 0x3C 0x0F 0) 0x8013) (fun t => t.reg 0x0) = some 0x33 := by decide +kernel
/-- W2, W3. -/
theorem test_addReg : after (stepWord (withV 200 100 0) 0x8014) (fun t => (t.reg 0x0, t.reg 0xF)) = some (44, 1) ∧
    after (stepWord (withV 10 20 1) 0x8014) (fun t => (t.reg 0x0, t.reg 0xF)) = some (30, 0) := by decide +kernel
/-- T43, and T44 with its word read as 0x80F4 (log 15): x = F ends holding the flag, y = F is read first. -/
theorem test_addReg_VF : after (stepWord (withV 0 100 200) 0x8F14) (fun t => t.reg 0xF) = some 1 ∧
    after (stepWord (withV 1 0 0xFF) 0x80F4) (fun t => (t.reg 0x0, t.reg 0xF)) = some (0, 1) := by decide +kernel
/-- W4, T46. -/
theorem test_sub : after (stepWord (withV 5 10 0) 0x8015) (fun t => (t.reg 0x0, t.reg 0xF)) = some (251, 0) ∧
    after (stepWord (withV 10 5 0) 0x8015) (fun t => (t.reg 0x0, t.reg 0xF)) = some (5, 1) := by decide +kernel
/-- T45, T47. -/
theorem test_sub_corners : after (stepWord (withV 7 7 1) 0x8015) (fun t => (t.reg 0x0, t.reg 0xF)) = some (0, 0) ∧
    after (stepWord (withV 3 0 9) 0x8F05) (fun t => t.reg 0xF) = some 1 := by decide +kernel
/-- T51, T52. -/
theorem test_shr : after (stepWord (withV 0x80 0xFF 0) 0x8016) (fun t => (t.reg 0x0, t.reg 0x1, t.reg 0xF)) =
    some (0x40, 0xFF, 0) ∧ after (stepWord (withV 0 0 3) 0x8F06) (fun t => t.reg 0xF) = some 1 := by decide +kernel
/-- T53, T54. -/
theorem test_subn : after (stepWord (withV 5 10 0) 0x8017) (fun t => (t.reg 0x0, t.reg 0xF)) = some (5, 1) ∧
    after (stepWord (withV 10 5 0) 0x8017) (fun t => (t.reg 0x0, t.reg 0xF)) = some (0xFB, 0) := by decide +kernel
/-- T57, T58. -/
theorem test_shl : after (stepWord (withV 0xFF 0 0) 0x800E) (fun t => (t.reg 0x0, t.reg 0xF)) = some (0xFE, 1) ∧
    after (stepWord (withV 0x40 0 0) 0x800E) (fun t => (t.reg 0x0, t.reg 0xF)) = some (0x80, 0) := by decide +kernel
/-- T60. -/
theorem test_rnd : after (stepWith 0 0xA7 State.reset 0xC30F) (fun t => t.reg 0x3) = some 0x07 := by decide +kernel

/-! ## Index register and memory -/

/-- T70. -/
theorem test_ldI : after (stepWord State.reset 0xA2F0) (fun t => t.I) = some 0x02F0 := by decide +kernel
/-- T71, T72. -/
theorem test_addI : after (stepWord ((withV 0 5 0).setI 0x0FFE) 0xF11E) (fun t => (t.I, t.reg 0xF)) = some (0x1003, 0) ∧
    after (stepWord ((withV 1 0 0).setI 0xFFFF) 0xF01E) (fun t => (t.I, t.reg 0xF)) = some (0x0000, 0) := by
  decide +kernel
/-- T73, T76. -/
theorem test_ldF : after (stepWord (State.reset.setReg 0x4 0x0A) 0xF429) (fun t => t.I) = some 0x0032 ∧
    after (stepWord (withV 0xFF 0 0) 0xF029) (fun t => t.I) = some 0x04FB := by decide +kernel
/-- T79: the digits wrap onto the font. -/
theorem test_ldB : after (stepWord ((withV 255 0 0).setI 0x0FFF) 0xF033)
    (fun t => (t.read 0xFFF, t.read 0x000, t.read 0x001, t.I)) = some (2, 5, 5, 0x0FFF) := by decide +kernel
/-- T80, T82. -/
theorem test_ldMemVx : after (stepWord ((withV 0x11 0x22 0).setReg 0x2 0x33 |>.setI 0x400) 0xF255)
    (fun t => (t.read 0x400, t.read 0x401, t.read 0x402, t.I)) = some (0x11, 0x22, 0x33, 0x400) ∧
    after (stepWord ((withV 0x99 0x22 0).setI 0x400) 0xF055) (fun t => (t.read 0x400, t.read 0x401)) = some (0x99, 0) := by
  decide +kernel
/-- T83. -/
theorem test_ldVxMem : after (stepWord (withBytes [0x11, 0x22, 0x33]) 0xF165)
    (fun t => (t.reg 0x0, t.reg 0x1, t.reg 0x2, t.I)) = some (0x11, 0x22, 0, 0x300) := by decide +kernel

/-! ## Display -/

/-- T90. -/
theorem test_cls : after (stepWord (State.reset.setDisp (lit [(3, 4), (63, 31)])) 0x00E0)
    (fun t => (t.disp, t.pc)) = some (Disp.blank, 0x202) := by decide +kernel
/-- R191, R192 by hand, after T92 and T98: the row wraps, bit 0 is the rightmost column. -/
theorem test_drw_wrap : after (stepWord ((withBytes [0xF1]).setReg 0x0 60) 0xD011) (fun t => (t.disp, t.reg 0xF)) =
    some (lit [(60, 0), (61, 0), (62, 0), (63, 0), (3, 0)], 0) := by decide +kernel
/-- T96: the collision of row 0 is kept over row 1. -/
theorem test_drw_collision : after (stepWord ((withBytes [0x80, 0x80]).setDisp (lit [(0, 0)])) 0xD012)
    (fun t => (t.disp, t.reg 0xF)) = some (lit [(0, 1)], 1) := by decide +kernel

/-! ## Timers and keypad -/

/-- T100, T102. -/
theorem test_skp : after (stepWith 0x0020 0 (State.reset.setReg 0x2 5) 0xE29E) (fun t => t.pc) = some 0x204 ∧
    after (stepWith 0xFFFF 0 (withV 16 0 0) 0xE09E) (fun t => t.pc) = some 0x202 := by decide +kernel
/-- T105, T106. -/
theorem test_sknp : after (stepWith 0x0020 0 (State.reset.setReg 0x2 5) 0xE2A1) (fun t => t.pc) = some 0x202 ∧
    after (stepWith 0xFFFF 0 (withV 16 0 0) 0xE0A1) (fun t => t.pc) = some 0x204 := by decide +kernel
/-- T108. -/
theorem test_ldVxDT : after (stepWord (State.reset.setDT 0x3C) 0xF307) (fun t => t.reg 0x3) = some 0x3C := by
  decide +kernel
/-- T109. -/
theorem test_ldDTVx : after (stepWord (State.reset.setReg 0x3 0x3C) 0xF315) (fun t => (t.DT, t.ST)) = some (0x3C, 0) := by
  decide +kernel
/-- T110. -/
theorem test_ldSTVx : after (stepWord (State.reset.setReg 0x3 2) 0xF318) (fun t => (t.DT, t.ST)) = some (0, 2) := by
  decide +kernel
/-- T112: the lowest key. -/
theorem test_ldVxK : after (stepWith 0x1010 0 State.reset 0xF50A) (fun t => (t.reg 0x5, t.pc)) = some (4, 0x202) := by
  decide +kernel
/-- T113. -/
theorem test_ldVxK_waits : after (stepWord State.reset 0xF50A) (fun t => (t.KW, t.pc, statusOf (.next t))) =
    some (⟨true, 0x5⟩, 0x200, some .awaitingKey) := by decide +kernel

/-- A state of T114 to T116: a key wait pending at 0x210 and the operations to come. -/
def waiting (x : Nibble) (ops : List DriverOp) : State :=
  { (State.reset.setPc 0x210).setKW ⟨true, x⟩ with pending := ops }

/-- T114, T115. -/
theorem test_resume : after (step (waiting 0x5 [.step 0x0008 0])) (fun t => (t.reg 0x5, t.KW, t.pc)) =
    some (3, ⟨false, 0x5⟩, 0x212) ∧ after (step (waiting 0x5 [.step 0 0])) id = some (waiting 0x5 []) := by decide +kernel

/-! ## UNASSIGNED, and the other operations -/

/-- T120 and its neighbours: PC advances and nothing else changes. -/
theorem test_unassigned : ∀ w ∈ [0x8128, 0x8129, 0x812A, 0x812B, 0x812C, 0x812D, 0x8FFF, 0xE0A2, 0xF000, 0xF0FF],
    after (stepWord (withV 1 2 5) w) (fun t => (t.pc, t.V)) = some (0x202, (withV 1 2 5).V) := by decide +kernel
/-- T126: the fetch wraps modulo 4096, PC does not. -/
theorem test_fetch_wraps : after (stepWord (State.reset.setPc 0x0FFF) 0x6012) (fun t => (t.reg 0x0, t.pc)) =
    some (0x12, 0x1001) := by decide +kernel
/-- W8. -/
theorem test_tick : after (step { State.reset.setDT 2 with pending := [.tick] }) (fun t => (t.DT, t.ST)) = some (1, 0) := by
  decide +kernel
/-- RESET of a dirty state gives the RESET state (R250). -/
theorem test_reset :
    after (step ((((waiting 0x5 [.reset]).setReg 0x3 4).write 0x003 4).setStack [1])) id = some State.reset := by decide +kernel
/-- R253: the image goes to 0x200 onward. -/
theorem test_load : after (step { State.reset with pending := [.load [0x60, 0x05]] })
    (fun t => (t.read 0x1FF, t.read 0x200, t.read 0x201, t.read 0x202, t.pc)) = some (0, 0x60, 0x05, 0, 0x200) := by
  decide +kernel

/-! ## Witnesses: each statement's hypotheses can be met -/

theorem witness_DecodeOfEncodeIsIdentity : (Instr.sys 0xFF1).wellFormed = true ∧
    (Instr.unassignedE 0xF 0xF 0xF).wellFormed = true ∧ (Instr.unassignedF 0x0 0x00).wellFormed = true := by decide

theorem witness_AliasWordsRunAsCanonicalOnes :
    (∃ t, exec (decode 0x00E0) State.reset = .next t) ∧
    (∃ t, exec (decode 0x00EE) (State.reset.setStack [0x0202]) = .next t) ∧
    (∃ t, exec (decode (ofNibbles 0x5 0x1 0x2 0x0)) State.reset = .next t) ∧
    (∃ t, exec (decode (ofNibbles 0x9 0x1 0x2 0x0)) State.reset = .next t) ∧
    (∃ t, exec (decode (ofNibbles 0xE 0x1 0x9 0xE)) State.reset = .next t) ∧
    ∃ t, exec (decode (ofNibbles 0xE 0x1 0xA 0x1)) State.reset = .next t :=
  ⟨⟨_, rfl⟩, ⟨_, rfl⟩, ⟨_, rfl⟩, ⟨_, rfl⟩, ⟨_, rfl⟩, ⟨_, rfl⟩⟩

/-- A state with LD VC, 0x05 at the last address and the first, to run next. -/
def wrapped (ops : List DriverOp) : State :=
  { ((State.reset.setPc 0x0FFF).write 0xFFF 0x6C).write 0x1000 0x05 with pending := ops }

theorem witness_StepRunsTheInstructionAtPc : (∀ ops, (wrapped ops).KW.valid = false ∧ (wrapped ops).pending = ops) ∧
    (Instr.ldByte 0xC 0x05).wellFormed = true ∧
    ∀ ops ∈ [[], [DriverOp.step 0xFFFF 0xFF, .tick]],
      (wrapped ops).read (wrapped ops).pc.toNat = highByte (encode (.ldByte 0xC 0x05)) ∧
      (wrapped ops).read ((wrapped ops).pc.toNat + 1) = lowByte (encode (.ldByte 0xC 0x05)) :=
  ⟨fun _ => ⟨rfl, rfl⟩, by decide, by decide +kernel⟩

theorem witness_lowestKeys : LowestKey 0x0001 0 ∧ LowestKey 0x8000 15 ∧ LowestKey 0xFFFF 0 ∧ LowestKey 0x1010 4 := by
  unfold LowestKey; decide

theorem witness_StepResumesPendingKeyWait (keys : Word) : (waiting 0xF [.step keys 0]).KW.valid = true ∧
    (waiting 0xF [.step keys 0]).pending = .step keys 0 :: [] := ⟨rfl, rfl⟩

theorem witness_StepStatusTellsTheKeyWait : (∃ t, stepOp 0 0 (waiting 0x5 []) = .next t) ∧
    (∃ t, stepOp 0x8000 0 (waiting 0x5 []) = .next t) ∧ ∃ t, stepOp 0 0 State.reset = .next t := ⟨⟨_, rfl⟩, ⟨_, rfl⟩, ⟨_, rfl⟩⟩

/-- The RESET state with a driver's schedule. -/
def driven (ops : List DriverOp) : State := { State.reset with pending := ops }

theorem witness_pending_operations : (driven [.tick]).pending = .tick :: [] ∧
    (driven [.tick, .tick, .reset]).pending = List.replicate 2 .tick ++ [.reset] ∧
    (driven []).pending = List.replicate 0 .tick ++ [] ∧ (driven [.reset]).pending = .reset :: [] := ⟨rfl, rfl, rfl, rfl⟩

theorem witness_LoadWritesTheImageAndNothingElse (b : Byte) :
    (driven [.load (List.replicate 3584 b)]).pending = .load (List.replicate 3584 b) :: [] ∧
    (List.replicate 3584 b).length ≤ 3584 ∧ 3584 < (List.replicate 3585 b).length ∧
    (List.replicate 3584 b)[3583]? = some b :=
  ⟨rfl, by rw [List.length_replicate], by rw [List.length_replicate]; decide, by rw [List.getElem?_replicate]; rfl⟩

theorem witness_SysOnlyAdvances : (0x1 : Nibble) ≠ 0x0 ∧ (0x1 : Nibble) ≠ 0xE ∧ (0xF : Nibble) ≠ 0x0 ∧
    (0xF : Nibble) ≠ 0xE := by decide

theorem witness_stack_depths : (State.reset.setStack [0x0202]).stack = [] ++ [0x0202] ∧ State.reset.stack = [] ∧
    (State.reset.setStack (List.replicate 15 0x0300)).stack.length < 16 ∧
    (State.reset.setStack (List.replicate 16 0x0300)).stack.length = 16 ∧
    (State.reset.setStack (List.replicate 16 0x0300)).stack = List.replicate 15 0x0300 ++ [0x0300] := by decide

theorem witness_RetReturnsAfterTheCall : ∃ t u, exec (.call 0x400) State.reset = .next t ∧ u.stack = t.stack ∧ u ≠ t :=
  ⟨_, ((State.reset.setStack [0x202]).setPc 0x800), rfl, rfl, by decide +kernel⟩

/-- Both sides of VF as a destination, for the statements with a premise `x ≠ F`. -/
theorem witness_not_VF : (0x0 : Nibble) ≠ 0xF ∧ (0xE : Nibble) ≠ 0xF := by decide

theorem witness_VFEndsHoldingTheFlag : (∃ t, exec (.ldByte 0xE 0x05) State.reset = .next t) ∧
    ¬SetsFlag (.ldByte 0xE 0x05) ∧ ¬WritesVFAsData (.ldByte 0xE 0x05) := by simp [exec, execLdByte, SetsFlag, WritesVFAsData]

/-- I two past PC less `k`, so that register `k` lands where the next instruction is fetched. -/
theorem witness_StoredWordIsFetchedNext :
    (0 + 1 ≤ (0x1 : Nibble).toNat ∧ (State.reset.setI 0x202).effAddr 0 = (State.reset.pc.toNat + 2) % 4096 ∧
      ∃ t, exec (.ldMemVx 0x1) (State.reset.setI 0x202) = .next t) ∧
    (14 + 1 ≤ (0xF : Nibble).toNat ∧
      ((State.reset.setPc 0x0FFE).setI 0xFFF2).effAddr 14 = ((State.reset.setPc 0x0FFE).pc.toNat + 2) % 4096 ∧
      ∃ t, exec (.ldMemVx 0xF) ((State.reset.setPc 0x0FFE).setI 0xFFF2) = .next t) :=
  ⟨⟨by decide, by decide, _, rfl⟩, by decide, by decide, _, rfl⟩

theorem witness_MemoriesThatReadAlikeAreEqual : Memory.wf [(0x000, 0x12), (0xFFF, 0x01)] = true ∧
    (∀ a, Memory.read [(0x000, 0x12), (0xFFF, 0x01)] a = Memory.read [(0x000, 0x12), (0xFFF, 0x01)] a) :=
  ⟨by decide, fun _ => rfl⟩

theorem witness_CollisionCoversTheWholeSprite :
    ∃ t, exec (.drw 0x0 0x1 0xF) (withBytes [0x80, 0x80]) = .next t := ⟨_, rfl⟩

theorem witness_DrawingTwiceRestoresTheSurface : (0x0 : Nibble) ≠ 0xF ∧ (0x1 : Nibble) ≠ 0xF ∧
    ∃ t u, exec (.drw 0x0 0x1 0x2) (withBytes [0xFF]) = .next t ∧ exec (.drw 0x0 0x1 0x2) t = .next u :=
  ⟨by decide, by decide, _, _, rfl, rfl⟩

theorem witness_LdKTakesLowestKeyOrWaits : LowestKey (State.reset.sample 0x8000 0).keys 15 ∧ State.reset.keys = 0 :=
  ⟨witness_lowestKeys.2.1, rfl⟩

theorem witness_UnassignedWordsOnlyAdvance : (0x0 : Nibble) ≠ 0xE ∧ (0x0 : Nibble) ≠ 0x1 ∧
    byteOf 0x0 0x0 ∉ ([0x07, 0x0A, 0x15, 0x18, 0x1E, 0x29, 0x33, 0x55, 0x65] : List Byte) ∧
    byteOf 0xF 0xF ∉ ([0x07, 0x0A, 0x15, 0x18, 0x1E, 0x29, 0x33, 0x55, 0x65] : List Byte) ∧
    Instr.unassignedF 0x0 0xFF ∈ [Instr.unassigned88 0x0 0x0, .unassigned89 0x0 0x0, .unassigned8A 0x0 0x0,
      .unassigned8B 0x0 0x0, .unassigned8C 0x0 0x0, .unassigned8D 0x0 0x0, .unassigned8F 0x0 0x0,
      .unassignedE 0x0 0x0 0x2, .unassignedF 0x0 0xFF] := by decide

/-- A next state that changes I, DT, ST, the stack, KW, the display or memory, each by a named instruction. -/
theorem witness_OnlyNamedInstructionsWriteEachPart :
    after (exec (.ldI 0x123) State.reset) (fun t => t.I) = some 0x123 ∧
    after (exec (.ldDTVx 0x0) (withV 1 0 0)) (fun t => t.DT) = some 1 ∧
    after (exec (.ldSTVx 0x0) (withV 1 0 0)) (fun t => t.ST) = some 1 ∧
    after (exec (.call 0x400) State.reset) (fun t => t.stack) = some [0x202] ∧
    after (exec (.ldVxK 0x0) State.reset) (fun t => t.KW.valid) = some true ∧
    after (exec (.drw 0x0 0x0 0x1) State.reset) (fun t => t.disp.cell 0 0) = some true ∧
    after (exec (.ldMemVx 0x0) State.reset) (fun t => t.mem) = some [(0, 0)] := by decide +kernel

theorem witness_EveryInstructionFollowsItsPcClass : (∃ t, exec (.skp 0x0 0x9) State.reset = .next t) ∧
    (∃ t, exec (.ret 0x0 0xE) (State.reset.setStack [0x0202]) = .next t) ∧
    ∃ t, exec (.ldVxK 0x0) State.reset = .next t := ⟨⟨_, rfl⟩, ⟨_, rfl⟩, ⟨_, rfl⟩⟩

theorem witness_OtherInstructionsIgnoreTheInputs : ¬ReadsInputs (.ret 0x0 0xE) ∧
    (∃ t, exec (.ret 0x0 0xE) (State.reset.setStack [0x0202]) = .next t) ∧ ∃ f, exec (.ret 0x0 0xE) State.reset = .fault f :=
  ⟨fun h => h, ⟨_, rfl⟩, ⟨_, rfl⟩⟩

theorem witness_NoInstructionObservesST : (∃ t, exec (.ldVxDT 0x0) State.reset = .next t) ∧
    ∃ f, exec (.ret 0x0 0xE) State.reset = .fault f := ⟨⟨_, rfl⟩, ⟨_, rfl⟩⟩

/-- A full stack with CALL 0x400 at PC, and an empty one with RET. -/
def callsOnFull : State := ((State.reset.setStack (List.replicate 16 0x0300)).write 0x200 0x24).write 0x201 0x00
/-- See callsOnFull. -/
def returnsOnEmpty : State := (State.reset.write 0x200 0x00).write 0x201 0xEE

theorem witness_ExactlyTwoFaultConditions : (callsOnFull.Inv ∧ decode callsOnFull.fetch = .call 0x400 ∧
      faultOf (perform (.step 0 0) callsOnFull) = some (.stackOverflow 0x2400 0x0200)) ∧
    returnsOnEmpty.Inv ∧ decode returnsOnEmpty.fetch = .ret 0x0 0xE ∧
      faultOf (perform (.step 0 0) returnsOnEmpty) = some (.stackUnderflow 0x00EE 0x0200) := by decide +kernel

theorem witness_FaultReportsAndRepeats : faultOf (stepOp 0 0 callsOnFull) = some (.stackOverflow 0x2400 0x0200) ∧
    faultOf (stepOp 0xFFFF 0xFF returnsOnEmpty) = some (.stackUnderflow 0x00EE 0x0200) := by decide +kernel

/-- One state that keeps the duties, one whose CALL breaks them and one whose RET does; each is about to take a STEP. -/
theorem witness_StepIsSafeExactlyWithinCallDuty (ops : List DriverOp) :
    (∀ s ∈ [State.reset, callsOnFull, returnsOnEmpty], s.KW.valid = false) ∧
    (∀ s : State, ({ s with pending := .step 0 0 :: ops } : State).pending = .step 0 0 :: ops) ∧
    CallDuty (decode State.reset.fetch) State.reset ∧ ¬CallDuty (decode callsOnFull.fetch) callsOnFull ∧
    ¬CallDuty (decode returnsOnEmpty.fetch) returnsOnEmpty :=
  ⟨by decide +kernel, fun _ => rfl, ⟨fun _ h => (by cases h), fun _ _ h => (by cases h)⟩,
    fun h => absurd (h.1 0x400 (by decide +kernel)) (by decide +kernel),
    fun h => h.2 0x0 0xE (by decide +kernel) (by decide +kernel)⟩

theorem witness_EveryStepKeepsTheStateLegal : (waiting 0x5 [.step 0x0008 0]).Inv ∧
    (∃ t, step (waiting 0x5 [.step 0x0008 0]) = .next t) ∧ (driven [.load [0x60, 0x05]]).Inv ∧
    ∃ t, step (driven [.load [0x60, 0x05]]) = .next t := ⟨by decide +kernel, ⟨_, rfl⟩, by decide +kernel, _, rfl⟩

end Sys2Proof.Tests
end

/-! The frame of every instruction, the flag VF ends with, and the statement that VF changes by nothing else (R22). -/

namespace Sys2Proof.Machine

/-! ### The frame of an instruction -/

/-- Moving PC adds nothing to a change: PC is no `Part`. -/
theorem ChangesOnly.setPc {s t : State} {ps : List Part} (h : ChangesOnly s t ps) (w : Word) :
    ChangesOnly s (t.setPc w) ps := by simpa using h.trans (changesOnly_setPc t w)

theorem ChangesOnly.adv {s t : State} {ps : List Part} (h : ChangesOnly s t ps) (k : Word) :
    ChangesOnly s (t.adv k) ps := h.setPc _

/-- The parts an instruction may write, at the state it runs in (R110 to R206). An instruction not listed moves PC
alone. -/
def writtenParts (i : Instr) (s : State) : List Part :=
  match i with
  | .ldByte x _ | .addByte x _ | .ldReg x _ | .or x _ | .and x _ | .xor x _ | .rnd x _ | .ldVxDT x => [.reg x]
  | .addReg x _ | .sub x _ | .shr x _ | .subn x _ | .shl x _ => [.reg x, .reg regVF]
  | .drw _ _ _ => [.disp, .reg regVF]
  | .cls _ _ => [.disp]
  | .ret _ _ | .call _ => [.stack]
  | .ldVxK x => [.reg x, .KW]
  | .ldDTVx _ => [.DT]
  | .ldSTVx _ => [.ST]
  | .ldI _ | .addI _ | .ldF _ => [.I]
  | .ldB _ => bytesFromI s 3
  | .ldMemVx x => bytesFromI s (x.toNat + 1)
  | .ldVxMem x => (List.range (x.toNat + 1)).map fun k => .reg (BitVec.ofNat 4 k)
  | _ => []

/-- The three writes of FX33 change the bytes at I, I+1 and I+2 alone (R173). -/
theorem changesOnly_write_three (s : State) (b₀ b₁ b₂ : Byte) :
    ChangesOnly s (((s.write (s.effAddr 0) b₀).write (s.effAddr 1) b₁).write (s.effAddr 2) b₂) (bytesFromI s 3) := by
  have h := ((changesOnly_write s (s.effAddr 0) b₀).trans (changesOnly_write _ (s.effAddr 1) b₁)).trans
    (changesOnly_write _ (s.effAddr 2) b₂)
  simpa [bytesFromI, List.range_succ] using h

/-- An instruction that completes changes nothing but PC and the parts it writes. -/
theorem exec_changesOnly {i : Instr} {s t : State} (h : exec i s = .next t) : ChangesOnly s t (writtenParts i s) := by
  cases i
  case ret =>
    obtain ⟨rest, v, -, rfl⟩ := execRet_next h
    exact (changesOnly_setStack s rest).setPc v
  case call =>
    obtain ⟨-, rfl⟩ := execCall_next h
    exact (changesOnly_setStack s _).setPc _
  case ldVxK x =>
    obtain ⟨key, -, rfl⟩ | ⟨-, rfl⟩ := execLdVxK_next h
    · exact ((changesOnly_setReg s x key).adv 2).mono (by simp [writtenParts])
    · exact (changesOnly_setKW s _).mono (by simp [writtenParts])
  all_goals obtain rfl := Host.Outcome.next.inj h
  case ldByte | addByte | ldReg | or | and | xor | rnd | ldVxDT => exact (changesOnly_setReg s _ _).adv 2
  case addReg | sub | shr | subn | shl => exact (changesOnly_setRegThenFlag s _ _ _).adv 2
  case drw => exact ((changesOnly_setDisp s _).trans (changesOnly_setFlag _ _)).adv 2
  case cls => exact (changesOnly_setDisp s _).adv 2
  case ldDTVx => exact (changesOnly_setDT s _).adv 2
  case ldSTVx => exact (changesOnly_setST s _).adv 2
  case ldI | addI | ldF => exact (changesOnly_setI s _).adv 2
  case ldB => exact (changesOnly_write_three s _ _ _).adv 2
  case ldMemVx => exact (changesOnly_storeRegs s _).adv 2
  case ldVxMem x => exact (changesOnly_loadRegs s x.isLt).adv 2
  case seByte | sneByte | seReg | sneReg | skp | sknp => exact changesOnly_skipIf s _
  case jp | jpV0 => exact changesOnly_setPc s _
  all_goals exact changesOnly_adv s 2

/-- VF is among the registers FX65 loads exactly where x = F (R175). -/
theorem VF_mem_loaded_iff (x : Nibble) :
    Part.reg 0xF ∈ (List.range (x.toNat + 1)).map (fun k => Part.reg (BitVec.ofNat 4 k)) ↔ x = 0xF := by
  revert x; decide

/-- Whatever writes VF is a flag instruction or has VF as its destination (R22). -/
theorem VF_mem_writtenParts {i : Instr} {s : State} (h : .reg 0xF ∈ writtenParts i s) :
    SetsFlag i ∨ WritesVFAsData i := by
  cases i
  case addReg | sub | shr | subn | shl | drw => exact .inl trivial
  case ldVxMem x => exact .inr ((VF_mem_loaded_iff x).mp h)
  case ldByte | addByte | ldReg | or | and | xor | rnd | ldVxDT | ldVxK =>
    exact .inr (by simpa [writtenParts, WritesVFAsData, eq_comm] using h)
  all_goals simp [writtenParts, bytesFromI] at h

/-- An instruction that writes VF neither as a flag nor as data leaves it alone (R22). -/
theorem exec_VF_unchanged {i : Instr} {s t : State} (h : exec i s = .next t) (noFlag : ¬SetsFlag i)
    (noData : ¬WritesVFAsData i) : t.reg 0xF = s.reg 0xF := by
  obtain ⟨unchanged, -⟩ := exec_changesOnly h
  exact unchanged (.reg 0xF) fun written => (VF_mem_writtenParts written).elim noFlag noData

/-! ### The flag in VF -/

/-- Where a result and then a flag are written, VF holds the flag, whichever register the result went to. -/
theorem State.VF_setRegThenFlag (s : State) (x : Nibble) (b : Byte) (f : Bool) :
    (s.setRegThenFlag x b f).reg 0xF = flagByte f := (s.reg_setRegThenFlag x 0xF b f).trans (if_pos rfl)

theorem State.VF_setFlag (s : State) (f : Bool) : (s.setFlag f).reg 0xF = flagByte f := s.reg_setReg_self _ _

theorem flagByte_decide (p : Prop) [Decidable p] : flagByte (decide p) = if p then 1 else 0 := by simp [flagByte]

theorem flagByte_eq_zero_or_one (f : Bool) : flagByte f = 0 ∨ flagByte f = 1 := by cases f <;> decide

theorem flagByte_toNat (f : Bool) : (flagByte f).toNat = f.toNat := by cases f <;> rfl

/-- SHR shifts out the remainder modulo 2 (R148). -/
theorem flagByte_shiftedOutRight_toNat (v : Byte) : (flagByte (shiftedOutRight v)).toNat = v.toNat % 2 := by
  rw [flagByte_toNat, shiftedOutRight, BitVec.getLsbD, Nat.toNat_testBit, Nat.pow_zero, Nat.div_one]

/-- SHL shifts out the quotient by 128 (R150). -/
theorem flagByte_shiftedOutLeft_toNat (v : Byte) : (flagByte (shiftedOutLeft v)).toNat = v.toNat / 128 := by
  rw [flagByte_toNat, shiftedOutLeft, BitVec.getLsbD, Nat.toNat_testBit]
  omega

end Sys2Proof.Machine

namespace Sys2Proof.Proofs

open Sys2Proof.Machine

/-- Settles O29. VF is left alone by the frame of every other instruction; a flag instruction ends with the flag because
it writes the flag last. -/
theorem vfEndsHoldingTheFlag : Obligations.VFEndsHoldingTheFlag := by
  refine ⟨fun i s t => exec_VF_unchanged, fun y s => ⟨⟨_, rfl, ?add⟩, ⟨_, rfl, ?sub⟩, ⟨_, rfl, ?subn⟩,
    ⟨_, rfl, ?shr⟩, ⟨_, rfl, ?shl⟩⟩, fun x y n s => ⟨_, rfl, ?drw⟩⟩
  case add => rw [State.adv_reg, State.VF_setRegThenFlag, carryFlag, flagByte_decide]
  case sub | subn => rw [State.adv_reg, State.VF_setRegThenFlag, greaterFlag, flagByte_decide]
  case shr => rw [State.adv_reg, State.VF_setRegThenFlag, flagByte_shiftedOutRight_toNat]
  case shl => rw [State.adv_reg, State.VF_setRegThenFlag, flagByte_shiftedOutLeft_toNat]
  case drw =>
    rw [State.adv_reg, State.VF_setFlag]
    exact flagByte_eq_zero_or_one _

end Sys2Proof.Proofs

/-! The words the decoder leaves UNASSIGNED, and what they do (R89 to R91, R93). -/

namespace Sys2Proof

/-- The selectors of the nine instructions of family 0xF that are assigned (R91). -/
def assignedSelectorsF : List Byte := [0x07, 0x0A, 0x15, 0x18, 0x1E, 0x29, 0x33, 0x55, 0x65]

theorem decodeE_of_ne {a : Nibble} (notSkp : a ≠ 0xE) (notSknp : a ≠ 0x1) (c b : Nibble) :
    decodeE c b a = .unassignedE c b a := by
  unfold decodeE
  split
  · exact absurd rfl notSkp
  · exact absurd rfl notSknp
  · rfl

theorem decodeF_of_not_mem {kk : Byte} (unassigned : kk ∉ assignedSelectorsF) (x : Nibble) :
    decodeF x kk = .unassignedF x kk := by
  unfold decodeF
  split
  case h_10 => rfl
  all_goals exact absurd (by decide) unassigned

end Sys2Proof

namespace Sys2Proof.Machine

/-- The nine UNASSIGNED instructions with given fields (R93). -/
def unassignedInstrs (x y a : Nibble) (kk : Byte) : List Instr :=
  [.unassigned88 x y, .unassigned89 x y, .unassigned8A x y, .unassigned8B x y, .unassigned8C x y,
    .unassigned8D x y, .unassigned8F x y, .unassignedE x y a, .unassignedF x kk]

/-- Every arm of an UNASSIGNED instruction is the one effect of R93. -/
theorem exec_of_mem_unassignedInstrs {x y a : Nibble} {kk : Byte} {i : Instr} (h : i ∈ unassignedInstrs x y a kk)
    (s : State) : exec i s = .next (s.adv 2) := by
  simp only [unassignedInstrs, List.mem_cons, List.not_mem_nil, or_false] at h
  obtain rfl | rfl | rfl | rfl | rfl | rfl | rfl | rfl | rfl := h <;> rfl

end Sys2Proof.Machine

namespace Sys2Proof.Proofs

open Sys2Proof.Machine

/-- Settles O6. The fetch joins the two bytes at PC and PC+1, and a read reduces its address (R52). -/
theorem fetchReadsHighByteFirst : Obligations.FetchReadsHighByteFirst := by
  intro s
  rw [State.read_mod, State.read_mod]
  exact wordOf_toNat _ _

/-- Settles O45. Families 8, E and F each leave the selectors they do not assign; what is left runs as the effect of
R93. -/
theorem unassignedWordsOnlyAdvance : Obligations.UnassignedWordsOnlyAdvance := by
  refine ⟨fun c b a => ?decoded, fun x y a kk s i listed => ?run⟩
  case decoded =>
    simp only [decode_ofNibbles]
    exact ⟨rfl, rfl, rfl, rfl, rfl, rfl, rfl, fun notSkp notSknp => decodeE_of_ne notSkp notSknp c b,
      fun unassigned => decodeF_of_not_mem unassigned c⟩
  case run => exact ⟨s.adv 2, exec_of_mem_unassignedInstrs listed s, rfl, changesOnly_adv s 2⟩

end Sys2Proof.Proofs

/-! Control flow: what CALL and RET do on either side of their stack bound, where a skip and a jump leave PC (R86, R111 to
R115). -/

namespace Sys2Proof.Machine

/-! ### CALL and RET -/

/-- RET with an entry on the stack completes (R111). -/
theorem execRet_of_stack_concat {s : State} {rest : List Word} {v : Word} (h : s.stack = rest ++ [v])
    (c b : Nibble) : execRet c b s = .next ((s.setStack rest).setPc v) := by
  rw [execRet, s.pop?_eq_some_iff.mpr ⟨rest, h, rfl⟩]

/-- RET on an empty stack faults with its word and its PC (R111, R222). -/
theorem execRet_of_stack_nil {s : State} (h : s.stack = []) (c b : Nibble) :
    execRet c b s = .fault (.stackUnderflow (encode (.ret c b)) s.pc) := by
  rw [execRet, s.pop?_eq_none_iff.mpr h, raise]

/-- CALL with room on the stack completes (R113). -/
theorem execCall_of_room {s : State} (room : s.stack.length < stackDepth) (nnn : Addr) :
    execCall nnn s = .next ((s.setStack (s.stack ++ [s.pc + 2])).setPc (zextAddr nnn)) := by
  rw [execCall, s.push?_eq_some_iff.mpr ⟨room, rfl⟩]

/-- CALL on a full stack faults with its word and its PC (R113, R222). -/
theorem execCall_of_full {s : State} (full : stackDepth ≤ s.stack.length) (nnn : Addr) :
    execCall nnn s = .fault (.stackOverflow (encode (.call nnn)) s.pc) := by
  rw [execCall, s.push?_eq_none_iff.mpr full, raise]

theorem encode_call_addrOf (c b a : Nibble) : encode (.call (addrOf c b a)) = ofNibbles 0x2 c b a := by
  rw [encode, encodeNnn, addrOf_high, addrOf_mid, addrOf_low]

/-! ### Where PC goes -/

theorem zextAddr_toNat (nnn : Addr) : (zextAddr nnn).toNat = nnn.toNat :=
  BitVec.toNat_setWidth_of_le (by decide)

/-- A skip on equality (R86). -/
theorem State.pc_skipIf_beq (s : State) (u v : Byte) :
    (s.skipIf (u == v)).pc = if u = v then s.pc + 4 else s.pc + 2 := by
  by_cases h : u = v <;> simp [h]

/-- A skip on inequality (R86). -/
theorem State.pc_skipIf_bne (s : State) (u v : Byte) :
    (s.skipIf (u != v)).pc = if u = v then s.pc + 2 else s.pc + 4 := by
  by_cases h : u = v <;> simp [h]

end Sys2Proof.Machine

namespace Sys2Proof.Proofs

open Sys2Proof.Machine

/-- Settles O15, by whether the stack has an entry to pop. -/
theorem retPopsIntoPc : Obligations.RetPopsIntoPc := by
  refine fun c b s => ⟨decode_ofNibbles _ _ _ _, fun rest v entry => ?pops, fun empty => ?faults⟩
  case pops =>
    exact ⟨_, execRet_of_stack_concat entry c b, rfl, rfl, (changesOnly_setStack s rest).setPc v⟩
  case faults => exact execRet_of_stack_nil empty c b

/-- Settles O16. -/
theorem jpSetsPc : Obligations.JpSetsPc := fun _ _ _ s =>
  ⟨decode_ofNibbles _ _ _ _, _, rfl, zextAddr_toNat _, changesOnly_setPc s _⟩

/-- Settles O17, by whether the stack has room. -/
theorem callPushesReturnAddress : Obligations.CallPushesReturnAddress := by
  refine fun c b a s => ⟨decode_ofNibbles _ _ _ _, fun room => ?pushes, fun full => ?faults⟩
  case pushes =>
    exact ⟨_, execCall_of_room room _, rfl, zextAddr_toNat _, (changesOnly_setStack s _).setPc _⟩
  case faults =>
    rw [← encode_call_addrOf]
    exact execCall_of_full full.ge _

/-- Settles O18. -/
theorem byteSkipsCompareWithLiteral : Obligations.ByteSkipsCompareWithLiteral := fun x b a s =>
  ⟨decode_ofNibbles _ _ _ _, decode_ofNibbles _ _ _ _,
    ⟨_, rfl, s.pc_skipIf_beq (s.reg x) (byteOf b a), changesOnly_skipIf s _⟩,
    ⟨_, rfl, s.pc_skipIf_bne (s.reg x) (byteOf b a), changesOnly_skipIf s _⟩⟩

end Sys2Proof.Proofs

/-! Registers and arithmetic: the 8-bit results as numbers, the register a result goes to, and the flag written
after it (R140, R141, R146 to R150). -/

namespace Sys2Proof.Machine

/-! ### Results as numbers -/

/-- A difference wraps modulo 256 (R147, R149), over the integers so that it may be negative before it wraps. -/
theorem toNat_sub_eq_emod (u v : Byte) : ((u - v).toNat : Int) = (u.toNat - v.toNat : Int) % 256 := by
  have hv := v.isLt
  rw [BitVec.toNat_sub]
  omega

/-- A shift right by one halves (R148). -/
theorem toNat_ushiftRight_one (v : Byte) : (v >>> 1).toNat = v.toNat / 2 := by
  rw [BitVec.toNat_ushiftRight, Nat.shiftRight_one]

/-- A shift left by one doubles modulo 256 (R150). -/
theorem toNat_shiftLeft_one (v : Byte) : (v <<< 1).toNat = 2 * v.toNat % 256 := by
  rw [BitVec.toNat_shiftLeft, Nat.shiftLeft_eq, Nat.pow_one, Nat.mul_comm]

/-! ### Flags -/

theorem flagByte_carryFlag (u v : Byte) : flagByte (carryFlag u v) = if u.toNat + v.toNat > 255 then 1 else 0 :=
  flagByte_decide _

theorem flagByte_greaterFlag (u v : Byte) : flagByte (greaterFlag u v) = if u.toNat > v.toNat then 1 else 0 :=
  flagByte_decide _

/-- A register other than VF keeps its result through the flag written after it (R22, R257). -/
theorem State.reg_setRegThenFlag_self (s : State) {x : Nibble} (notVF : x ≠ 0xF) (b : Byte) (f : Bool) :
    (s.setRegThenFlag x b f).reg x = b :=
  (s.reg_setRegThenFlag x x b f).trans ((if_neg notVF).trans (if_pos rfl))

end Sys2Proof.Machine

namespace Sys2Proof.Proofs

open Sys2Proof.Machine

/-- Settles O22. -/
theorem ldByteWritesLiteral : Obligations.LdByteWritesLiteral := fun x _ _ s =>
  ⟨decode_ofNibbles _ _ _ _, _, rfl, s.reg_setReg_self x _, rfl, (changesOnly_setReg s x _).adv 2⟩

/-- Settles O23. The frame names Vx alone, so no flag is written. -/
theorem addByteWrapsWithoutFlag : Obligations.AddByteWrapsWithoutFlag := by
  refine fun x b a s => ⟨decode_ofNibbles _ _ _ _, _, rfl, ?sum, rfl, (changesOnly_setReg s x _).adv 2⟩
  case sum => rw [State.adv_reg, State.reg_setReg_self, BitVec.toNat_add]

/-- Settles O25. -/
theorem addRegisterSetsCarry : Obligations.AddRegisterSetsCarry := by
  refine fun x y s => ⟨decode_ofNibbles _ _ _ _, _, rfl, fun notVF => ?sum, ?carry, rfl,
    (changesOnly_setRegThenFlag s x _ _).adv 2⟩
  case sum => rw [State.adv_reg, s.reg_setRegThenFlag_self notVF, BitVec.toNat_add]
  case carry => rw [State.adv_reg, State.VF_setRegThenFlag, flagByte_carryFlag]

/-- Settles O26. SUBN is SUB with minuend and subtrahend exchanged. -/
theorem subtractionsSetStrictFlag : Obligations.SubtractionsSetStrictFlag := by
  refine fun x y s => ⟨decode_ofNibbles _ _ _ _, decode_ofNibbles _ _ _ _,
    ⟨_, rfl, fun notVF => ?sub, ?subFlag, rfl, (changesOnly_setRegThenFlag s x _ _).adv 2⟩,
    ⟨_, rfl, fun notVF => ?subn, ?subnFlag, rfl, (changesOnly_setRegThenFlag s x _ _).adv 2⟩⟩
  case sub | subn => rw [State.adv_reg, s.reg_setRegThenFlag_self notVF, toNat_sub_eq_emod]
  case subFlag | subnFlag => rw [State.adv_reg, State.VF_setRegThenFlag, flagByte_greaterFlag]

/-- Settles O27. The result and the bit shifted out depend on Vx alone. -/
theorem shiftsMoveOneBitIntoVF : Obligations.ShiftsMoveOneBitIntoVF := by
  refine fun x y s => ⟨decode_ofNibbles _ _ _ _, decode_ofNibbles _ _ _ _,
    ⟨_, rfl, fun notVF => ?shr, ?shrOut, rfl, (changesOnly_setRegThenFlag s x _ _).adv 2⟩,
    ⟨_, rfl, fun notVF => ?shl, ?shlOut, rfl, (changesOnly_setRegThenFlag s x _ _).adv 2⟩⟩
  case shr => rw [State.adv_reg, s.reg_setRegThenFlag_self notVF, toNat_ushiftRight_one]
  case shrOut => rw [State.adv_reg, State.VF_setRegThenFlag, flagByte_shiftedOutRight_toNat]
  case shl => rw [State.adv_reg, s.reg_setRegThenFlag_self notVF, toNat_shiftLeft_one]
  case shlOut => rw [State.adv_reg, State.VF_setRegThenFlag, flagByte_shiftedOutLeft_toNat]

end Sys2Proof.Proofs

/-! Index register and memory transfers: the V0..Vx range read at a register number, PC after a transfer, the decimal
digits as numbers and where FX33 leaves them (R170, R173 to R175). -/

namespace Sys2Proof.Machine

/-! ### The V0..Vx transfers -/

@[simp] theorem regIdx_toNat_self (r : Nibble) : regIdx r.toNat = r := ((regIdx_eq_iff r.isLt r).mpr rfl).symm

@[simp] theorem State.storeRegs_pc (s : State) (n : Nat) : (s.storeRegs n).pc = s.pc := by
  rw [s.storeRegs_eq, State.setMem_pc]

@[simp] theorem State.loadRegs_pc (s : State) (n : Nat) : (s.loadRegs n).pc = s.pc := by rw [s.loadRegs_eq]

/-! ### Decimal digits -/

theorem bcdHundreds_toNat (v : Byte) : (bcdHundreds v).toNat = v.toNat / 100 :=
  Nat.mod_eq_of_lt (by have := v.isLt; omega)

theorem bcdTens_toNat (v : Byte) : (bcdTens v).toNat = v.toNat / 10 % 10 :=
  Nat.mod_eq_of_lt (by omega)

theorem bcdOnes_toNat (v : Byte) : (bcdOnes v).toNat = v.toNat % 10 :=
  Nat.mod_eq_of_lt (by omega)

/-- Read after write at two offsets from I (R177). -/
theorem State.read_write_effAddr (s t : State) {j k : Nat} (hj : j < 4096) (hk : k < 4096) (b : Byte) :
    (t.write (s.effAddr k) b).read (s.effAddr j) = if j = k then b else t.read (s.effAddr j) := by
  simp only [State.read_write, State.effAddr_mod, s.effAddr_inj hj hk]

/-- The three bytes written at I, I+1 and I+2 are read back, for their addresses differ (R173). -/
theorem State.read_write_three (s : State) (b₀ b₁ b₂ : Byte) :
    let t := ((s.write (s.effAddr 0) b₀).write (s.effAddr 1) b₁).write (s.effAddr 2) b₂
    t.read (s.effAddr 0) = b₀ ∧ t.read (s.effAddr 1) = b₁ ∧ t.read (s.effAddr 2) = b₂ := by
  simp [State.read_write_effAddr]

end Sys2Proof.Machine

namespace Sys2Proof.Proofs

open Sys2Proof.Machine

/-- Settles O34. The last register stored is Vx, so the range is V0 to Vx inclusive. -/
theorem storeWritesV0ToVx : Obligations.StoreWritesV0ToVx := by
  refine fun x s => ⟨decode_ofNibbles _ _ _ _, _, rfl, fun r upToX => ?stored, ?pc, (changesOnly_storeRegs s _).adv 2⟩
  case stored => rw [State.adv_read, s.storeRegs_read_in x.isLt (Nat.lt_succ_of_le upToX), regIdx_toNat_self]
  case pc => rw [State.adv_pc, State.storeRegs_pc]

/-- Settles O35. -/
theorem loadReadsV0ToVx : Obligations.LoadReadsV0ToVx := by
  refine fun x s => ⟨decode_ofNibbles _ _ _ _, _, rfl, fun r => ?loaded, ?pc, (changesOnly_loadRegs s x.isLt).adv 2⟩
  case loaded => simp only [State.adv_reg, s.loadRegs_reg x.isLt, Nat.lt_succ_iff]
  case pc => rw [State.adv_pc, State.loadRegs_pc]

/-- Settles O30. -/
theorem ldIWritesAddress : Obligations.LdIWritesAddress := fun _ _ _ s =>
  ⟨decode_ofNibbles _ _ _ _, _, rfl, zextAddr_toNat _, rfl, (changesOnly_setI s _).adv 2⟩

/-- Settles O33. The digits are those of Vx as it was, and none of the three stores overwrites another. -/
theorem ldBStoresDecimalDigits : Obligations.LdBStoresDecimalDigits := by
  intro x s
  obtain ⟨hundreds, tens, ones⟩ :=
    s.read_write_three (bcdHundreds (s.reg x)) (bcdTens (s.reg x)) (bcdOnes (s.reg x))
  refine ⟨decode_ofNibbles _ _ _ _, _, rfl, ?_, ?_, ?_, rfl, (changesOnly_write_three s _ _ _).adv 2⟩
  · rw [State.adv_read, hundreds, bcdHundreds_toNat]
  · rw [State.adv_read, tens, bcdTens_toNat]
  · rw [State.adv_read, ones, bcdOnes_toNat]

end Sys2Proof.Proofs

/-! The display instructions (R190). -/

namespace Sys2Proof.Proofs

open Sys2Proof.Machine

/-- Settles O38. The new surface is the blank one, whose every cell is off (R62). -/
theorem clsClearsTheSurface : Obligations.ClsClearsTheSurface := by
  refine fun c b s => ⟨decode_ofNibbles _ _ _ _, _, rfl, fun cx cy => ?off, rfl, (changesOnly_setDisp s _).adv 2⟩
  case off => rw [State.adv_disp, State.setDisp_disp, Disp.cell_blank]

end Sys2Proof.Proofs

/-! The duty a program has at CALL and RET, and TICK (R220, R229, R261). -/

namespace Sys2Proof.Machine

/-! ### The duty at CALL and RET -/

/-- An instruction within its duty completes (R261). -/
theorem exec_next_of_callDuty {i : Instr} {s : State} (duty : CallDuty i s) : ∃ t, exec i s = .next t := by
  obtain ⟨callHasRoom, retHasEntry⟩ := duty
  obtain completes | ⟨nnn, isCall, full, -⟩ | ⟨c, b, isRet, empty, -⟩ := exec_outcome i s
  · exact completes
  · exact absurd (callHasRoom nnn isCall) (Nat.not_lt.mpr full)
  · exact absurd empty (retHasEntry c b isRet)

/-- An instruction that completes was within its duty. -/
theorem callDuty_of_exec_next {i : Instr} {s t : State} (h : exec i s = .next t) : CallDuty i s := by
  refine ⟨?call, ?ret⟩
  case call =>
    rintro nnn rfl
    exact (execCall_next h).1
  case ret =>
    rintro c b rfl
    obtain ⟨rest, v, entry, -⟩ := execRet_next h
    exact entry ▸ List.concat_ne_nil v rest

/-- An instruction that breaks its duty faults (R220). -/
theorem exec_fault_of_not_callDuty {i : Instr} {s : State} (broken : ¬CallDuty i s) : ∃ f, exec i s = .fault f := by
  obtain ⟨t, completes⟩ | ⟨-, -, -, faults⟩ | ⟨-, -, -, -, faults⟩ := exec_outcome i s
  · exact absurd (callDuty_of_exec_next completes) broken
  · exact ⟨_, faults⟩
  · exact ⟨_, faults⟩

/-! ### Steps by the operation at the front of the schedule -/

/-- A STEP with no key wait pending is one fetch-decode-execute cycle on the sampled state (R85). -/
theorem step_of_pending_step {s : State} {keys : Word} {rnd : Byte} {rest : List DriverOp}
    (scheduled : s.pending = .step keys rnd :: rest) (noWait : s.KW.valid = false) :
    step s = exec (decode s.fetch) (({ s with pending := rest } : State).sample keys rnd) := by
  rw [step_cons scheduled, perform, stepOp_eq, noWait]
  rfl

/-- TICK changes the two timers alone (R229). -/
theorem changesOnly_tick (s : State) : ChangesOnly s s.tick [.DT, .ST] :=
  (changesOnly_setDT s _).trans (changesOnly_setST _ _)

end Sys2Proof.Machine

namespace Sys2Proof.Proofs

open Sys2Proof.Machine

/-- Settles O53. Sampling the inputs leaves the stack alone, so the duty at `s` is the duty at the state the instruction
runs in. -/
theorem stepIsSafeExactlyWithinCallDuty : Obligations.StepIsSafeExactlyWithinCallDuty := by
  intro s keys rnd rest scheduled noWait
  rw [Safe, step_of_pending_step scheduled noWait]
  exact ⟨fun duty => exec_next_of_callDuty duty, fun broken => exec_fault_of_not_callDuty broken⟩

/-- Settles O10. -/
theorem tickCountsBothTimersDown : Obligations.TickCountsBothTimersDown := fun s _ scheduled =>
  ⟨_, step_cons scheduled, countDown_toNat s.DT, countDown_toNat s.ST, rfl, changesOnly_tick _⟩

end Sys2Proof.Proofs

/-! Encoding: the decoder on the word of an instruction, and the encoder on the instruction of a word (R83, R88 to
R95). -/

namespace Sys2Proof

/-! ### The residual selectors -/

theorem sysSelector_iff (a : Nibble) : sysSelector a = true ↔ a ≠ 0x0 ∧ a ≠ 0xE := by simp [sysSelector]

theorem unassignedSelectorE_iff (a : Nibble) : unassignedSelectorE a = true ↔ a ≠ 0xE ∧ a ≠ 0x1 := by
  simp [unassignedSelectorE]

theorem unassignedSelectorF_iff (kk : Byte) : unassignedSelectorF kk = true ↔ kk ∉ assignedSelectorsF := by
  simp [unassignedSelectorF, assignedSelectorsF, and_assoc]

theorem decode0_of_ne {a : Nibble} (notCls : a ≠ 0x0) (notRet : a ≠ 0xE) (c b : Nibble) :
    decode0 c b a = .sys (addrOf c b a) := by
  unfold decode0
  split
  · exact absurd rfl notCls
  · exact absurd rfl notRet
  · rfl

/-! ### Decoding a pattern -/

theorem decode_encodeNnn (d : Nibble) (nnn : Addr) : decode (encodeNnn d nnn) =
    decodeFields d (nnn.extractLsb' 8 4) (nnn.extractLsb' 4 4) (nnn.extractLsb' 0 4) := decode_ofNibbles _ _ _ _

theorem decode_encodeXkk (d x : Nibble) (kk : Byte) : decode (encodeXkk d x kk) =
    decodeFields d x (kk.extractLsb' 4 4) (kk.extractLsb' 0 4) := decode_ofNibbles _ _ _ _

/-- Family 0xF sees the low byte whole (R91). -/
theorem decode_encodeXkk_F (x : Nibble) (kk : Byte) : decode (encodeXkk 0xF x kk) = decodeF x kk := by
  rw [decode_encodeXkk]
  exact congrArg (decodeF x) (byteOf_fields kk)

/-- Decoding undoes encoding. Only the three residual rows need well-formedness: each has the selectors its family does
not give to another instruction. -/
theorem decode_encode {i : Instr} (wf : i.wellFormed = true) : decode (encode i) = i := by
  cases i
  case sys nnn =>
    obtain ⟨notCls, notRet⟩ := (sysSelector_iff _).mp wf
    rw [encode, decode_encodeNnn]
    exact (decode0_of_ne notCls notRet _ _).trans (congrArg Instr.sys (addrOf_fields nnn))
  case unassignedE x b a =>
    obtain ⟨notSkp, notSknp⟩ := (unassignedSelectorE_iff a).mp wf
    rw [encode, decode_ofNibbles]
    exact decodeE_of_ne notSkp notSknp x b
  case unassignedF x kk =>
    rw [encode, decode_encodeXkk_F, decodeF_of_not_mem ((unassignedSelectorF_iff kk).mp wf)]
  case jp | call | ldI | jpV0 =>
    rw [encode, decode_encodeNnn]
    exact congrArg _ (addrOf_fields _)
  case seByte | sneByte | ldByte | addByte | rnd =>
    rw [encode, decode_encodeXkk]
    exact congrArg _ (byteOf_fields _)
  case ldVxDT | ldVxK | ldDTVx | ldSTVx | addI | ldF | ldB | ldMemVx | ldVxMem => exact decode_encodeXkk_F _ _
  all_goals exact decode_ofNibbles _ _ _ _

/-! ### Encoding what a word decodes to -/

/-- The instruction is well-formed and stands for the word. -/
def StandsFor (i : Instr) (w : Word) : Prop := i.wellFormed = true ∧ encode i = w

theorem encodeNnn_addrOf (d c b a : Nibble) : encodeNnn d (addrOf c b a) = ofNibbles d c b a := by
  rw [encodeNnn, addrOf_high, addrOf_mid, addrOf_low]

theorem encodeXkk_byteOf (d x b a : Nibble) : encodeXkk d x (byteOf b a) = ofNibbles d x b a := by
  rw [encodeXkk, byteOf_high, byteOf_low]

theorem decode0_standsFor (c b a : Nibble) : StandsFor (decode0 c b a) (ofNibbles 0x0 c b a) := by
  unfold decode0
  split
  · exact ⟨rfl, rfl⟩
  · exact ⟨rfl, rfl⟩
  · next notCls notRet =>
    exact ⟨(sysSelector_iff _).mpr (by rw [addrOf_low]; exact ⟨notCls, notRet⟩), encodeNnn_addrOf _ _ _ _⟩

/-- The one nibble left where a family names the other fifteen. -/
theorem nibble_eq_F_of_ne {a : Nibble} (h0 : a ≠ 0x0) (h1 : a ≠ 0x1) (h2 : a ≠ 0x2) (h3 : a ≠ 0x3) (h4 : a ≠ 0x4)
    (h5 : a ≠ 0x5) (h6 : a ≠ 0x6) (h7 : a ≠ 0x7) (h8 : a ≠ 0x8) (h9 : a ≠ 0x9) (hA : a ≠ 0xA) (hB : a ≠ 0xB)
    (hC : a ≠ 0xC) (hD : a ≠ 0xD) (hE : a ≠ 0xE) : a = 0xF := by bv_omega

theorem decode8_standsFor (c b a : Nibble) : StandsFor (decode8 c b a) (ofNibbles 0x8 c b a) := by
  unfold decode8
  split
  case h_16 =>
    obtain rfl : a = 0xF := by apply nibble_eq_F_of_ne <;> assumption
    exact ⟨rfl, rfl⟩
  all_goals exact ⟨rfl, rfl⟩

theorem decodeE_standsFor (c b a : Nibble) : StandsFor (decodeE c b a) (ofNibbles 0xE c b a) := by
  unfold decodeE
  split
  · exact ⟨rfl, rfl⟩
  · exact ⟨rfl, rfl⟩
  · next notSkp notSknp => exact ⟨(unassignedSelectorE_iff a).mpr ⟨notSkp, notSknp⟩, rfl⟩

theorem decodeF_standsFor (x : Nibble) (kk : Byte) : StandsFor (decodeF x kk) (encodeXkk 0xF x kk) := by
  by_cases assigned : kk ∈ assignedSelectorsF
  · simp only [assignedSelectorsF, List.mem_cons, List.not_mem_nil, or_false] at assigned
    obtain rfl | rfl | rfl | rfl | rfl | rfl | rfl | rfl | rfl := assigned <;> exact ⟨rfl, rfl⟩
  · rw [decodeF_of_not_mem assigned]
    exact ⟨(unassignedSelectorF_iff kk).mpr assigned, rfl⟩

theorem decodeFields_standsFor (d c b a : Nibble) : StandsFor (decodeFields d c b a) (ofNibbles d c b a) := by
  unfold decodeFields
  split
  case h_1 => exact decode0_standsFor c b a
  case h_9 => exact decode8_standsFor c b a
  case h_15 => exact decodeE_standsFor c b a
  case h_16 =>
    obtain rfl : d = 0xF := by apply nibble_eq_F_of_ne <;> assumption
    rw [← encodeXkk_byteOf]
    exact decodeF_standsFor c _
  case h_2 | h_3 | h_11 | h_12 => exact ⟨rfl, encodeNnn_addrOf _ _ _ _⟩
  case h_4 | h_5 | h_7 | h_8 | h_13 => exact ⟨rfl, encodeXkk_byteOf _ _ _ _⟩
  case h_6 | h_10 | h_14 => exact ⟨rfl, rfl⟩

/-- Every word stands for an instruction, the one it decodes to (R83, R94). -/
theorem decode_standsFor (w : Word) : StandsFor (decode w) w := by
  obtain ⟨d, c, b, a, rfl⟩ := eq_ofNibbles w
  rw [decode_ofNibbles]
  exact decodeFields_standsFor d c b a

theorem encode_decode (w : Word) : encode (decode w) = w := (decode_standsFor w).2

end Sys2Proof

namespace Sys2Proof.Proofs

/-- Settles O2. The two bytes of an instruction make its word again, and the decoder leaves the bytes after them. -/
theorem decodeOfEncodeIsIdentity : Obligations.DecodeOfEncodeIsIdentity := by
  refine fun i wf => ⟨decode_encode wf, fun rest => ?bytes⟩
  case bytes =>
    rw [encodeBytes, List.cons_append, List.cons_append, List.nil_append, decodeBytes_cons_cons, wordOf_bytes,
      decode_encode wf]

/-- Settles O3. -/
theorem everyWordDecodesAndReencodes : Obligations.EveryWordDecodesAndReencodes := decode_standsFor

end Sys2Proof.Proofs

/-! The opcode table (R99): which rows match a word, why no two rows of one priority match the same word, and that the
row the decoder's constructor stands for is the one that wins. -/

namespace Sys2Proof

/-! ### The row of an instruction -/

theorem row_mem_opcodeTable (i : Instr) : i.row ∈ opcodeTable := by
  cases i <;> simp only [Instr.row] <;> decide

open Laws in
/-- An instruction's word matches its row, one case per row of the table. -/
theorem row_covers_encode (i : Instr) : i.row.covers (encode i) = true :=
  match i with
  | .cls c b => RowMatch.cls c b
  | .ret c b => RowMatch.ret c b
  | .sys nnn => RowMatch.sys nnn
  | .jp nnn => RowMatch.jp nnn
  | .call nnn => RowMatch.call nnn
  | .seByte x kk => RowMatch.seByte x kk
  | .sneByte x kk => RowMatch.sneByte x kk
  | .seReg x y n => RowMatch.seReg x y n
  | .ldByte x kk => RowMatch.ldByte x kk
  | .addByte x kk => RowMatch.addByte x kk
  | .ldReg x y => RowMatch.ldReg x y
  | .or x y => RowMatch.or x y
  | .and x y => RowMatch.and x y
  | .xor x y => RowMatch.xor x y
  | .addReg x y => RowMatch.addReg x y
  | .sub x y => RowMatch.sub x y
  | .shr x y => RowMatch.shr x y
  | .subn x y => RowMatch.subn x y
  | .shl x y => RowMatch.shl x y
  | .unassigned88 x y => RowMatch.unassigned88 x y
  | .unassigned89 x y => RowMatch.unassigned89 x y
  | .unassigned8A x y => RowMatch.unassigned8A x y
  | .unassigned8B x y => RowMatch.unassigned8B x y
  | .unassigned8C x y => RowMatch.unassigned8C x y
  | .unassigned8D x y => RowMatch.unassigned8D x y
  | .unassigned8F x y => RowMatch.unassigned8F x y
  | .sneReg x y n => RowMatch.sneReg x y n
  | .ldI nnn => RowMatch.ldI nnn
  | .jpV0 nnn => RowMatch.jpV0 nnn
  | .rnd x kk => RowMatch.rnd x kk
  | .drw x y n => RowMatch.drw x y n
  | .skp x b => RowMatch.skp x b
  | .sknp x b => RowMatch.sknp x b
  | .unassignedE x b a => RowMatch.unassignedE x b a
  | .ldVxDT x => RowMatch.ldVxDT x
  | .ldVxK x => RowMatch.ldVxK x
  | .ldDTVx x => RowMatch.ldDTVx x
  | .ldSTVx x => RowMatch.ldSTVx x
  | .addI x => RowMatch.addI x
  | .ldF x => RowMatch.ldF x
  | .ldB x => RowMatch.ldB x
  | .ldMemVx x => RowMatch.ldMemVx x
  | .ldVxMem x => RowMatch.ldVxMem x
  | .unassignedF x kk => RowMatch.unassignedF x kk

/-! ### Rows of one priority exclude each other -/

/-- The rows differ in a bit both masks keep. -/
def TableRow.Clash (r r' : TableRow) : Prop := r.bits &&& r'.mask ≠ r'.bits &&& r.mask

theorem TableRow.covers_iff (r : TableRow) (w : Word) : r.covers w = true ↔ w &&& r.mask = r.bits := beq_iff_eq

/-- A word that two rows match has the bits of both where both masks are set. -/
theorem TableRow.Clash.not_covers {r r' : TableRow} (clash : r.Clash r') {w : Word} (h : r.covers w = true) :
    r'.covers w = false := by
  rw [Bool.eq_false_iff]
  intro h'
  rw [TableRow.covers_iff] at h h'
  exact clash (by rw [← h, ← h', BitVec.and_assoc, BitVec.and_assoc, BitVec.and_comm r.mask])

/-- Two rows of the table with the same priority differ in a bit both masks keep. -/
theorem opcodeTable_clash : opcodeTable.Pairwise fun r r' => r.priority = r'.priority → r.Clash r' := by
  unfold TableRow.Clash
  decide +kernel

/-- A filter whose hits exclude each other keeps the one hit there is. -/
theorem filter_eq_singleton {α : Type} {p : α → Bool} {a : α} (hit : p a = true) {l : List α}
    (exclusive : l.Pairwise fun b c => p b = true → p c = false) (mem : a ∈ l) : l.filter p = [a] := by
  induction l with
  | nil => cases mem
  | cons b l ih =>
    obtain ⟨later, exclusive⟩ := List.pairwise_cons.mp exclusive
    cases mem with
    | head =>
      have none : l.filter p = [] := List.filter_eq_nil_iff.mpr fun c hc => by simp [later c hc hit]
      rw [List.filter_cons_of_pos hit, none]
    | tail _ mem =>
      have miss : ¬p b = true := fun hb => by simp [later a mem hb] at hit
      rw [List.filter_cons_of_neg miss, ih exclusive mem]

/-- Among the rows of its priority, a row that matches a word is the only one. -/
theorem filter_opcodeTable_eq {r : TableRow} (mem : r ∈ opcodeTable) {w : Word} (covers : r.covers w = true) :
    opcodeTable.filter (fun r' => r'.priority == r.priority && r'.covers w) = [r] := by
  refine filter_eq_singleton (by simp [covers]) (opcodeTable_clash.imp fun clash first => ?_) mem
  simp only [Bool.and_eq_true, beq_iff_eq, Bool.and_eq_false_imp] at first ⊢
  exact fun same => (clash (first.1.trans same.symm)).not_covers first.2

/-! ### A residual word matches no row of priority 1 -/

/-- A field the row examines whole is the field of the words it matches. -/
theorem TableRow.covers_field {k n : Nat} {r : TableRow} {w : Word} (covers : r.covers w = true)
    (whole : r.mask.extractLsb' k n = BitVec.allOnes n) : w.extractLsb' k n = r.bits.extractLsb' k n := by
  rw [← (r.covers_iff w).mp covers, BitVec.extractLsb'_and, whole, BitVec.and_allOnes]

/-- Every row examines the family. -/
theorem fieldD_of_covers {r : TableRow} (mem : r ∈ opcodeTable) {w : Word} (covers : r.covers w = true) :
    fieldD w = fieldD r.bits := by
  have whole : ∀ r ∈ opcodeTable, r.mask.extractLsb' 12 4 = BitVec.allOnes 4 := by decide
  exact TableRow.covers_field covers (whole r mem)

/-- Where every row of priority 1 in a family examines a selector whole, the words those rows match have the selectors
those rows have. -/
theorem selector_mem_of_covers {d : Nibble} {k n : Nat} {selectors : List (BitVec n)}
    (rows : ∀ r ∈ opcodeTable, r.priority = 1 → fieldD r.bits = d →
      r.mask.extractLsb' k n = BitVec.allOnes n ∧ r.bits.extractLsb' k n ∈ selectors)
    {r : TableRow} (mem : r ∈ opcodeTable) (first : r.priority = 1) {w : Word} (family : fieldD w = d)
    (covers : r.covers w = true) : w.extractLsb' k n ∈ selectors := by
  obtain ⟨whole, selector⟩ := rows r mem first (fieldD_of_covers mem covers ▸ family)
  rwa [TableRow.covers_field covers whole]

theorem lowByte_encodeXkk (d x : Nibble) (kk : Byte) : lowByte (encodeXkk d x kk) = kk := by
  ext i hi; interval_cases i <;> simp [lowByte, encodeXkk, ofNibbles]

/-- The three rows of priority 2 stand for the selectors their family leaves over (R88, R90, R91). -/
theorem not_covers_of_residual {i : Instr} (wf : i.wellFormed = true) (residual : i.row.priority = 2) {r : TableRow}
    (mem : r ∈ opcodeTable) (first : r.priority = 1) : r.covers (encode i) = false := by
  rw [Bool.eq_false_iff]
  intro covers
  cases i
  case sys nnn =>
    have selector : fieldA (encodeNnn 0x0 nnn) ∈ [0x0, 0xE] :=
      selector_mem_of_covers (by decide) mem first (fieldD_ofNibbles 0x0 _ _ _) covers
    rw [encodeNnn, fieldA_ofNibbles, List.mem_pair] at selector
    obtain ⟨notCls, notRet⟩ := (sysSelector_iff _).mp wf
    exact selector.elim notCls notRet
  case unassignedE x b a =>
    have selector : fieldA (ofNibbles 0xE x b a) ∈ [0xE, 0x1] :=
      selector_mem_of_covers (by decide) mem first (fieldD_ofNibbles 0xE _ _ _) covers
    rw [fieldA_ofNibbles, List.mem_pair] at selector
    obtain ⟨notSkp, notSknp⟩ := (unassignedSelectorE_iff a).mp wf
    exact selector.elim notSkp notSknp
  case unassignedF x kk =>
    have selector : lowByte (encodeXkk 0xF x kk) ∈ assignedSelectorsF :=
      selector_mem_of_covers (by decide) mem first (fieldD_ofNibbles 0xF _ _ _) covers
    rw [lowByte_encodeXkk] at selector
    exact (unassignedSelectorF_iff kk).mp wf selector
  all_goals cases residual

/-! ### The row that wins -/

/-- The row of a well-formed instruction wins its word. -/
theorem tableWinners_encode {i : Instr} (wf : i.wellFormed = true) : tableWinners (encode i) = [i.row] := by
  have mem := row_mem_opcodeTable i
  have only := filter_opcodeTable_eq mem (row_covers_encode i)
  have priorities : ∀ r ∈ opcodeTable, r.priority = 1 ∨ r.priority = 2 := by decide
  unfold tableWinners
  obtain first | residual := priorities i.row mem
  · rw [first] at only
    simp [only]
  · have none : opcodeTable.filter (fun r => r.priority == 1 && r.covers (encode i)) = [] := by
      rw [List.filter_eq_nil_iff]
      intro r hr hit
      simp only [Bool.and_eq_true, beq_iff_eq] at hit
      exact absurd hit.2 (by simp [not_covers_of_residual wf residual hr hit.1])
    rw [residual] at only
    simp [none, only]

end Sys2Proof

namespace Sys2Proof.Proofs

/-- Settles O4. Every word is the word of a well-formed instruction, and the row of that instruction wins it. -/
theorem decodeFollowsOpcodeTable : Obligations.DecodeFollowsOpcodeTable := by
  intro w
  obtain ⟨wf, isWord⟩ := decode_standsFor w
  calc tableWinners w = tableWinners (encode (decode w)) := by rw [isWord]
    _ = [(decode w).row] := tableWinners_encode wf

end Sys2Proof.Proofs

/-! The legal states (R26, R50): which instructions write each part of the state, and that every operation keeps the
memory canonical and the stack within its bound. -/

namespace Sys2Proof.Machine

/-! ### Who writes each part -/

/-- A part that an instruction changed is one of those it writes. -/
theorem mem_writtenParts_of_changed {i : Instr} {s t : State} (h : exec i s = .next t) {p : Part}
    (changed : ¬Unchanged s t p) : p ∈ writtenParts i s := by
  obtain ⟨unchanged, -⟩ := exec_changesOnly h
  exact by_contra fun notWritten => changed (unchanged p notWritten)

variable {i : Instr} {s t : State}

theorem I_mem_writtenParts (h : .I ∈ writtenParts i s) :
    (∃ nnn, i = .ldI nnn) ∨ (∃ x, i = .addI x) ∨ ∃ x, i = .ldF x := by
  cases i <;> simp [writtenParts, bytesFromI] at h ⊢

theorem DT_mem_writtenParts (h : .DT ∈ writtenParts i s) : ∃ x, i = .ldDTVx x := by
  cases i <;> simp [writtenParts, bytesFromI] at h ⊢

theorem ST_mem_writtenParts (h : .ST ∈ writtenParts i s) : ∃ x, i = .ldSTVx x := by
  cases i <;> simp [writtenParts, bytesFromI] at h ⊢

theorem stack_mem_writtenParts (h : .stack ∈ writtenParts i s) : (∃ nnn, i = .call nnn) ∨ ∃ c b, i = .ret c b := by
  cases i <;> simp [writtenParts, bytesFromI] at h ⊢

theorem KW_mem_writtenParts (h : .KW ∈ writtenParts i s) : ∃ x, i = .ldVxK x := by
  cases i <;> simp [writtenParts, bytesFromI] at h ⊢

theorem disp_mem_writtenParts (h : .disp ∈ writtenParts i s) :
    (∃ c b, i = .cls c b) ∨ ∃ x y n, i = .drw x y n := by
  cases i <;> simp [writtenParts, bytesFromI] at h ⊢

/-- An instruction that completes leaves the stack alone, or is CALL or RET (R51). -/
theorem exec_stack_changed (h : exec i s = .next t) (changed : t.stack ≠ s.stack) :
    (∃ nnn, i = .call nnn) ∨ ∃ c b, i = .ret c b :=
  stack_mem_writtenParts (mem_writtenParts_of_changed h (p := .stack) changed)

/-- Only FX0A writes the key-wait register (R29). -/
theorem exec_KW_changed (h : exec i s = .next t) (changed : t.KW ≠ s.KW) : ∃ x, i = .ldVxK x :=
  KW_mem_writtenParts (mem_writtenParts_of_changed h (p := .KW) changed)

/-- Only FX18 writes the sound timer (R25). -/
theorem exec_ST_changed (h : exec i s = .next t) (changed : t.ST ≠ s.ST) : ∃ x, i = .ldSTVx x :=
  ST_mem_writtenParts (mem_writtenParts_of_changed h (p := .ST) changed)

@[simp] theorem State.loadRegs_mem (s : State) (n : Nat) : (s.loadRegs n).mem = s.mem := by rw [s.loadRegs_eq]

/-- Memory as data, not byte by byte, is written by FX33 and FX55 alone (R51, R60). -/
theorem exec_mem_changed (h : exec i s = .next t) (changed : t.mem ≠ s.mem) :
    (∃ x, i = .ldB x) ∨ ∃ x, i = .ldMemVx x := by
  refine by_contra fun other => changed ?_
  cases i
  case ldB x => exact absurd (.inl ⟨x, rfl⟩) other
  case ldMemVx x => exact absurd (.inr ⟨x, rfl⟩) other
  case ret =>
    obtain ⟨rest, v, -, rfl⟩ := execRet_next h
    rfl
  case call =>
    obtain ⟨-, rfl⟩ := execCall_next h
    rfl
  case ldVxK =>
    obtain ⟨key, -, rfl⟩ | ⟨-, rfl⟩ := execLdVxK_next h <;> rfl
  all_goals obtain rfl := Host.Outcome.next.inj h
  case seByte | sneByte | seReg | sneReg | skp | sknp => exact s.skipIf_mem _
  case ldVxMem => rw [State.adv_mem, State.loadRegs_mem]
  all_goals rfl

/-! ### Legal states stay legal -/

/-- A state with the memory and the stack of a legal one is legal. -/
theorem State.Inv.congr (legal : s.Inv) (mem : t.mem = s.mem) (stack : t.stack = s.stack) : t.Inv := by
  rwa [State.Inv, mem, stack]

/-- The two instructions that write memory write it byte by byte, and each write keeps the canonical form. -/
theorem exec_mem_wf (legal : Memory.wf s.mem = true) (h : exec i s = .next t) : Memory.wf t.mem = true := by
  by_cases changed : t.mem = s.mem
  · rwa [changed]
  · obtain ⟨x, rfl⟩ | ⟨x, rfl⟩ := exec_mem_changed h changed
    · obtain rfl := Host.Outcome.next.inj h
      exact Memory.wf_write (Memory.wf_write (Memory.wf_write legal _ _) _ _) _ _
    · obtain rfl := Host.Outcome.next.inj h
      exact s.storeRegs_wf legal _

/-- CALL pushes only below the bound, and RET pops. -/
theorem exec_stack_length_le (legal : s.stack.length ≤ stackDepth) (h : exec i s = .next t) :
    t.stack.length ≤ stackDepth := by
  by_cases changed : t.stack = s.stack
  · rwa [changed]
  · obtain ⟨nnn, rfl⟩ | ⟨c, b, rfl⟩ := exec_stack_changed h changed
    · obtain ⟨room, rfl⟩ := execCall_next h
      rw [State.setPc_stack, State.setStack_stack, List.length_append]
      exact room
    · obtain ⟨rest, v, entry, rfl⟩ := execRet_next h
      rw [entry, List.length_append] at legal
      exact Nat.le_of_add_right_le legal

theorem exec_inv (legal : s.Inv) (h : exec i s = .next t) : t.Inv :=
  ⟨exec_mem_wf legal.1 h, exec_stack_length_le legal.2 h⟩

theorem State.resumeKeyWait_inv (legal : s.Inv) : s.resumeKeyWait.Inv := by
  cases chosen : s.chosenKey? with
  | none => rwa [s.resumeKeyWait_none chosen]
  | some key =>
    rw [s.resumeKeyWait_some chosen]
    exact legal.congr rfl rfl

@[simp] theorem State.loadImage_stack (s : State) (image : List Byte) : (s.loadImage image).stack = s.stack := by
  unfold State.loadImage
  split <;> rfl

/-- Each of the driver's four operations keeps the invariant. -/
theorem perform_inv (op : DriverOp) (legal : s.Inv) (h : perform op s = .next t) : t.Inv := by
  cases op with
  | step keys rnd =>
    have sampled : (s.sample keys rnd).Inv := legal
    rw [perform, stepOp_eq] at h
    split at h
    · obtain rfl := Host.Outcome.next.inj h
      exact State.resumeKeyWait_inv sampled
    · exact exec_inv sampled h
  | tick =>
    obtain rfl := Host.Outcome.next.inj h
    exact legal.congr rfl rfl
  | reset =>
    obtain rfl := Host.Outcome.next.inj h
    exact ⟨Memory.wf_nil, Nat.zero_le _⟩
  | load image =>
    obtain rfl := Host.Outcome.next.inj h
    refine ⟨s.loadImage_wf legal.1 image, ?_⟩
    rw [State.loadImage_stack]
    exact legal.2

end Sys2Proof.Machine

namespace Sys2Proof.Proofs

open Sys2Proof.Machine

/-- Settles O47. The parts are those of the frame; memory is compared as data. -/
theorem onlyNamedInstructionsWriteEachPart : Obligations.OnlyNamedInstructionsWriteEachPart := by
  intro i s t h
  obtain ⟨-, driverSide⟩ := exec_changesOnly h
  have written (p : Part) := mem_writtenParts_of_changed h (p := p)
  exact ⟨fun changed => I_mem_writtenParts (written .I changed),
    fun changed => DT_mem_writtenParts (written .DT changed), exec_ST_changed h, exec_stack_changed h,
    exec_KW_changed h, fun changed => disp_mem_writtenParts (written .disp changed), exec_mem_changed h,
    driverSide⟩

/-- Settles O56. Taking the next operation from the schedule leaves the engine alone. -/
theorem everyStepKeepsTheStateLegal : Obligations.EveryStepKeepsTheStateLegal := by
  intro s t legal h
  have taken : s.takeOp.2.Inv := by rwa [State.Inv, State.takeOp_engine]
  exact perform_inv s.takeOp.1 taken h

/-- Settles O55. -/
theorem resetStateIsLegal : Obligations.ResetStateIsLegal := ⟨Memory.wf_nil, Nat.zero_le _⟩

end Sys2Proof.Proofs

/-! Memory and display: canonical memories as data, the fetch after a store, and what a sprite does to the surface and
to VF (R50, R66, R191 to R193). -/

namespace Sys2Proof.Machine

/-! ### Canonical memories as data -/

/-- No cell of a canonical memory lies below its bound. -/
theorem Memory.find?_of_lt {a : Nat} : ∀ {m : Memory} {low : Nat}, Memory.wfFrom low m = true → a < low →
    Memory.find? m a = none
  | [], _, _, _ => rfl
  | (k, b) :: rest, low, wf, lt => by
    simp only [Memory.wfFrom, Bool.and_eq_true, decide_eq_true_eq] at wf
    obtain ⟨⟨⟨above, -⟩, -⟩, wf⟩ := wf
    rw [Memory.find?, if_neg (by omega), Memory.find?_of_lt wf (by omega)]

/-- A cell of a canonical memory has an address below 4096 and does not hold the RESET contents. -/
theorem Memory.find?_eq_some_bounds {a : Nat} {v : Byte} : ∀ {m : Memory} {low : Nat}, Memory.wfFrom low m = true →
    Memory.find? m a = some v → a < 4096 ∧ v ≠ Memory.initial a
  | (k, b) :: rest, low, wf, found => by
    simp only [Memory.wfFrom, Bool.and_eq_true, decide_eq_true_eq, bne_iff_ne] at wf
    obtain ⟨⟨⟨-, below⟩, differs⟩, wf⟩ := wf
    rw [Memory.find?] at found
    split at found
    · next here =>
      obtain rfl := here
      obtain rfl := Option.some.inj found
      exact ⟨below, differs⟩
    · exact Memory.find?_eq_some_bounds wf found

/-- What a canonical memory lists at an address is told by what it reads there. -/
theorem Memory.find?_eq_of_read {m : Memory} (wf : Memory.wf m = true) (a : Nat) : Memory.find? m a =
    if a < 4096 ∧ Memory.read m a ≠ Memory.initial a then some (Memory.read m a) else none := by
  cases found : Memory.find? m a with
  | none =>
    rw [if_neg]
    rintro ⟨below, differs⟩
    exact differs (by rw [Memory.read, Nat.mod_eq_of_lt below, found]; rfl)
  | some v =>
    obtain ⟨below, differs⟩ := Memory.find?_eq_some_bounds wf found
    have reads : Memory.read m a = v := by rw [Memory.read, Nat.mod_eq_of_lt below, found]; rfl
    rw [reads, if_pos ⟨below, differs⟩]

/-- Canonical memories that list the same cells are the same list. -/
theorem Memory.eq_of_find?_eq : ∀ {m m' : Memory} {low : Nat}, Memory.wfFrom low m = true →
    Memory.wfFrom low m' = true → (∀ a, Memory.find? m a = Memory.find? m' a) → m = m'
  | [], [], _, _, _, _ => rfl
  | [], (k, b) :: rest, _, _, _, same => by simpa [Memory.find?] using same k
  | (k, b) :: rest, [], _, _, _, same => by simpa [Memory.find?] using same k
  | (k, b) :: rest, (k', b') :: rest', low, wf, wf', same => by
    simp only [Memory.wfFrom, Bool.and_eq_true, decide_eq_true_eq] at wf wf'
    obtain ⟨-, wf⟩ := wf
    obtain ⟨-, wf'⟩ := wf'
    have sameHead : k = k' := by
      obtain lt | rfl | lt := Nat.lt_trichotomy k k'
      · have := same k
        simp [Memory.find?, Memory.find?_of_lt wf' (Nat.lt_succ_of_lt lt), lt.ne'] at this
      · rfl
      · have := same k'
        simp [Memory.find?, Memory.find?_of_lt wf (Nat.lt_succ_of_lt lt), lt.ne'] at this
    obtain rfl := sameHead
    have sameByte : b = b' := by simpa [Memory.find?] using same k
    have sameRest : rest = rest' := Memory.eq_of_find?_eq wf wf' fun a => by
      by_cases here : k = a
      · obtain rfl := here
        rw [Memory.find?_of_lt wf (Nat.lt_succ_self k), Memory.find?_of_lt wf' (Nat.lt_succ_self k)]
      · simpa [Memory.find?, here] using same a
    rw [sameByte, sameRest]

/-! ### The fetch after a store -/

/-- The bytes two consecutive registers leave where a state fetches from make the word it fetches (R66, R84). -/
theorem State.fetch_eq_of_read {s : State} {a a' : Nat} (high : s.pc.toNat % 4096 = a)
    (low : (s.pc.toNat + 1) % 4096 = a') : s.fetch = wordOf (s.read a) (s.read a') := by
  rw [State.fetch, ← high, ← low, State.read_mod, State.read_mod]

/-! ### Sprites -/

/-- The cells of the statements are those the display laws speak of. -/
theorem spriteCovers_iff (s : State) (x y n : Nibble) {cx cy : Nat} (hx : cx < 64) (hy : cy < 32) :
    SpriteCovers s x y n cx cy ↔ Covered (s.bytesAtI n.toNat) (s.reg x).toNat (s.reg y).toNat cx cy := by
  unfold SpriteCovers Covered
  simp only [State.getElem?_bytesAtI, Nat.mod_eq_of_lt hx, Nat.mod_eq_of_lt hy]
  constructor
  · rintro ⟨j, k, hj, hk, bit, atX, atY⟩
    exact ⟨j, k, _, ⟨hj, rfl⟩, hk, bit, atX, atY⟩
  · rintro ⟨j, k, row, ⟨hj, rfl⟩, hk, bit, atX, atY⟩
    exact ⟨j, k, hj, hk, bit, atX, atY⟩

/-- The surface DRW leaves and whether it turned a cell off (R191). -/
def drawn (s : State) (x y n : Nibble) : Disp × Bool :=
  Disp.drawRows (s.bytesAtI n.toNat) (s.reg x).toNat (s.reg y).toNat (s.disp, false)

theorem exec_drw (s : State) (x y n : Nibble) : exec (.drw x y n) s =
    .next (((s.setDisp (drawn s x y n).1).setFlag (drawn s x y n).2).adv 2) := rfl

/-- Whether a cell is one the sprite of DRW covers. -/
abbrev DrawCovers (s : State) (x y n : Nibble) (cx cy : Nat) : Prop :=
  Covered (s.bytesAtI n.toNat) (s.reg x).toNat (s.reg y).toNat cx cy

variable (s : State) (x y n : Nibble)

theorem length_bytesAtI_le : (s.bytesAtI n.toNat).length ≤ 32 := by
  have := n.isLt
  rw [State.length_bytesAtI]
  omega

/-- Each covered cell is flipped once. -/
theorem drawn_cell (cx cy : Nat) : (drawn s x y n).1.cell cx cy = true ↔
    ¬(s.disp.cell cx cy = true ↔ DrawCovers s x y n cx cy) :=
  Disp.drawRows_cell _ _ _ _ _ _ (length_bytesAtI_le s n)

/-- The collision is that of the whole sprite. -/
theorem drawn_hit : (drawn s x y n).2 = true ↔
    ∃ cx cy, s.disp.cell cx cy = true ∧ DrawCovers s x y n cx cy := by
  rw [drawn, Disp.drawRows_hit _ _ _ _ (length_bytesAtI_le s n)]
  simp

/-- A covered cell that was on is one the instruction turned off (R193). -/
theorem drawn_hit_iff_turned_off : (drawn s x y n).2 = true ↔
    ∃ cx cy, s.disp.cell cx cy = true ∧ (drawn s x y n).1.cell cx cy = false := by
  simp only [drawn_hit, ← Bool.not_eq_true, drawn_cell]
  refine exists_congr fun cx => exists_congr fun cy => and_congr_right fun on => ?_
  simp [on]

/-- The surface repeats, so a collision is one on the grid (R61). -/
theorem drawn_hit_iff_on_grid : (drawn s x y n).2 = true ↔
    ∃ cx cy, cx < 64 ∧ cy < 32 ∧ s.disp.cell cx cy = true ∧ SpriteCovers s x y n cx cy := by
  rw [drawn_hit]
  constructor
  · rintro ⟨cx, cy, on, covered⟩
    have hx : cx % 64 < 64 := Nat.mod_lt _ (by decide)
    have hy : cy % 32 < 32 := Nat.mod_lt _ (by decide)
    refine ⟨cx % 64, cy % 32, hx, hy, by rwa [Disp.cell_mod], (spriteCovers_iff s x y n hx hy).mpr ?_⟩
    simpa [DrawCovers, Covered] using covered
  · rintro ⟨cx, cy, hx, hy, on, covered⟩
    exact ⟨cx, cy, on, (spriteCovers_iff s x y n hx hy).mp covered⟩

theorem exec_drw_cell {s t : State} {x y n : Nibble} (h : exec (.drw x y n) s = .next t) (cx cy : Nat) :
    t.disp.cell cx cy = true ↔ ¬(s.disp.cell cx cy = true ↔ DrawCovers s x y n cx cy) := by
  rw [exec_drw] at h
  obtain rfl := Host.Outcome.next.inj h
  exact drawn_cell s x y n cx cy

/-- A second DRW sees the same sprite at the same place: only the surface and VF have changed. -/
theorem drawCovers_after_drw {t : State} (hx : x ≠ 0xF) (hy : y ≠ 0xF) (h : exec (.drw x y n) s = .next t) :
    DrawCovers t x y n = DrawCovers s x y n := by
  rw [exec_drw] at h
  obtain rfl := Host.Outcome.next.inj h
  have same {r : Nibble} (notVF : r ≠ 0xF) :
      (((s.setDisp (drawn s x y n).1).setFlag (drawn s x y n).2).adv 2).reg r = s.reg r :=
    (State.reg_setFlag _ r _).trans (if_neg notVF)
  unfold DrawCovers
  rw [same hx, same hy]
  rfl

end Sys2Proof.Machine

namespace Sys2Proof.Proofs

open Sys2Proof.Machine

/-- Settles O36. The store is done before the next fetch, and both of its addresses are in the range stored. -/
theorem storedWordIsFetchedNext : Obligations.StoredWordIsFetchedNext := by
  intro x k s t inRange atPc h
  obtain rfl := Host.Outcome.next.inj h
  have hx := x.isLt
  have high : ((s.storeRegs (x.toNat + 1)).adv 2).pc.toNat % 4096 = s.effAddr k := by
    rw [State.adv_pc, State.storeRegs_pc, BitVec.toNat_add, atPc]
    simp
  have low : (((s.storeRegs (x.toNat + 1)).adv 2).pc.toNat + 1) % 4096 = s.effAddr (k + 1) := by
    unfold State.effAddr at high ⊢
    omega
  rw [State.fetch_eq_of_read high low, State.adv_read, State.adv_read, s.storeRegs_read_in (by omega) (by omega),
    s.storeRegs_read_in (by omega) (by omega)]
  rfl

/-- Settles O37. What a canonical memory reads tells what it lists, and its order does the rest. -/
theorem memoriesThatReadAlikeAreEqual : Obligations.MemoriesThatReadAlikeAreEqual := by
  intro m m' wf wf' same
  refine Memory.eq_of_find?_eq wf wf' fun a => ?_
  rw [Memory.find?_eq_of_read wf, Memory.find?_eq_of_read wf', same]

/-- Settles O39. -/
theorem drwXorsTheSprite : Obligations.DrwXorsTheSprite := by
  refine fun x y n s => ⟨decode_ofNibbles _ _ _ _, _, exec_drw s x y n, fun cx cy hx hy => ?cell, ?hit, ?flag, rfl,
    ((changesOnly_setDisp s _).trans (changesOnly_setFlag _ _)).adv 2⟩
  case cell => rw [spriteCovers_iff s x y n hx hy, exec_drw_cell (exec_drw s x y n)]
  case hit => rw [State.adv_reg, State.VF_setFlag, flagByte_eq_one, drawn_hit_iff_on_grid]
  case flag =>
    rw [State.adv_reg, State.VF_setFlag]
    exact flagByte_eq_zero_or_one _

/-- Settles O40. -/
theorem collisionCoversTheWholeSprite : Obligations.CollisionCoversTheWholeSprite := by
  intro x y n s t h
  rw [exec_drw] at h
  obtain rfl := Host.Outcome.next.inj h
  simp only [State.adv_reg, State.VF_setFlag, State.adv_disp, State.setFlag_disp, State.setDisp_disp]
  refine ⟨(flagByte_eq_one _).trans (drawn_hit_iff_turned_off s x y n), (flagByte_eq_zero _).trans ?_⟩
  rw [← Bool.not_eq_true, drawn_hit_iff_turned_off]
  simp

/-- Settles O41. Each covered cell is flipped twice, and the second collision is the whole surface's (O40). -/
theorem drawingTwiceRestoresTheSurface : Obligations.DrawingTwiceRestoresTheSurface := by
  intro x y n s t u hx hy first second
  have sameSprite := drawCovers_after_drw s x y n hx hy first
  have restored : u.disp = s.disp := by
    refine Disp.ext_cell fun cx cy _ _ => ?_
    rw [Bool.eq_iff_iff, exec_drw_cell second, exec_drw_cell first, sameSprite]
    tauto
  obtain ⟨collision, -⟩ := collisionCoversTheWholeSprite x y n t u second
  refine ⟨restored, collision.trans ?_⟩
  rw [restored]
  simp only [and_comm]

end Sys2Proof.Proofs

/-! Steps and operations: when a STEP faults and what it reports, the status of a completed one, the key wait, and TICK,
RESET and LOAD (R36 to R41, R85, R204, R220 to R226, R250 to R254). -/

namespace Sys2Proof.Machine

variable {s t : State} {keys : Word} {rnd : Byte}

/-! ### The two outcomes of a STEP -/

/-- STEP while a key wait is pending (R204). -/
theorem stepOp_of_wait (waiting : s.KW.valid = true) :
    stepOp keys rnd s = .next (s.sample keys rnd).resumeKeyWait := by rw [stepOp_eq, if_pos waiting]

/-- STEP while none is: fetch, decode and execute (R85). -/
theorem stepOp_of_noWait (noWait : s.KW.valid = false) :
    stepOp keys rnd s = exec (decode s.fetch) (s.sample keys rnd) := by
  rw [stepOp_eq, noWait]
  rfl

/-! ### Faults -/

/-- The fault a STEP in this state raises: it has no key wait pending, and fetches a CALL with no room on the stack or a
RET with nothing on it. The report is the word fetched and its PC (R220, R222). -/
def FaultsWith (s : State) (f : Fault) : Prop :=
  s.KW.valid = false ∧
    (((∃ nnn, decode s.fetch = .call nnn) ∧ stackDepth ≤ s.stack.length ∧ f = .stackOverflow s.fetch s.pc) ∨
      ((∃ c b, decode s.fetch = .ret c b) ∧ s.stack = [] ∧ f = .stackUnderflow s.fetch s.pc))

/-- The one fact about faults: when a STEP raises which. The inputs have no part in it. -/
theorem stepOp_eq_fault_iff {f : Fault} : stepOp keys rnd s = .fault f ↔ FaultsWith s f := by
  unfold FaultsWith
  cases waiting : s.KW.valid with
  | true => simp [stepOp_of_wait waiting]
  | false =>
    rw [stepOp_of_noWait waiting]
    constructor
    · intro faults
      obtain ⟨t, completes⟩ | ⟨nnn, isCall, full, overflows⟩ | ⟨c, b, isRet, empty, underflows⟩ :=
        exec_outcome (decode s.fetch) (s.sample keys rnd)
      · rw [completes] at faults
        cases faults
      · rw [overflows, encode_decode] at faults
        cases faults
        exact ⟨rfl, .inl ⟨⟨nnn, isCall⟩, full, rfl⟩⟩
      · rw [underflows, encode_decode] at faults
        cases faults
        exact ⟨rfl, .inr ⟨⟨c, b, isRet⟩, empty, rfl⟩⟩
    · rintro ⟨-, ⟨⟨nnn, isCall⟩, full, rfl⟩ | ⟨⟨c, b, isRet⟩, empty, rfl⟩⟩
      · rw [isCall, exec, execCall_of_full (s := s.sample keys rnd) full, ← isCall, encode_decode]
        rfl
      · rw [isRet, exec, execRet_of_stack_nil (s := s.sample keys rnd) empty, ← isRet, encode_decode]
        rfl

/-- Only STEP can fault (R220). -/
theorem perform_eq_fault_iff {op : DriverOp} {f : Fault} :
    perform op s = .fault f ↔ (∃ keys rnd, op = .step keys rnd) ∧ FaultsWith s f := by
  cases op with
  | step keys rnd => simp [perform, stepOp_eq_fault_iff]
  | tick | reset | load => simp [perform]

/-- No operation is refused (R94). -/
theorem perform_ne_refused (op : DriverOp) (s : State) (r : Refusal) : perform op s ≠ .refused r := by
  cases op with
  | step keys rnd =>
    cases waiting : s.KW.valid with
    | true => simp [perform, stepOp_of_wait waiting]
    | false =>
      rw [perform, stepOp_of_noWait waiting]
      obtain ⟨t, outcome⟩ | ⟨-, -, -, outcome⟩ | ⟨-, -, -, outcome⟩ :=
        exec_outcome (decode s.fetch) (s.sample keys rnd) <;> simp [outcome]
  | tick | reset | load => simp [perform]

/-- Any number of TICKs leaves alone what a fault depends on. -/
theorem FaultsWith.tick_iterate {f : Fault} (h : FaultsWith s f) (n : Nat) : FaultsWith (State.tick^[n] s) f := by
  induction n generalizing s with
  | zero => exact h
  | succ n ih => exact ih h

/-! ### The key wait -/

/-- A completed STEP leaves a key wait pending exactly where no key is pressed and it resumed one or ran FX0A (R203,
R204). -/
theorem stepOp_wait_iff (h : stepOp keys rnd s = .next t) :
    t.KW.valid = true ↔ keys = 0 ∧ (s.KW.valid = true ∨ ∃ x, decode s.fetch = .ldVxK x) := by
  have none_iff : (s.sample keys rnd).chosenKey? = none ↔ keys = 0 := State.chosenKey?_eq_none_iff_zero _
  rw [← none_iff]
  cases waiting : s.KW.valid with
  | true =>
    rw [stepOp_of_wait waiting] at h
    obtain rfl := Host.Outcome.next.inj h
    cases chosen : (s.sample keys rnd).chosenKey? with
    | none => simp [State.resumeKeyWait_none _ chosen, waiting]
    | some key => simp [State.resumeKeyWait_some _ chosen]
  | false =>
    rw [stepOp_of_noWait waiting] at h
    by_cases isK : ∃ x, decode s.fetch = .ldVxK x
    · obtain ⟨x, isK⟩ := isK
      rw [isK] at h
      obtain ⟨key, chosen, rfl⟩ | ⟨chosen, rfl⟩ := execLdVxK_next h <;> simp [chosen, isK, waiting]
    · have kept : t.KW = (s.sample keys rnd).KW := by_contra fun changed => isK (exec_KW_changed h changed)
      simp [kept, waiting, isK]

/-- The lowest key is the one chosen (R207). -/
theorem State.chosenKey?_of_lowestKey {k : Nat} (lowest : LowestKey s.keys k) :
    s.chosenKey? = some (BitVec.ofNat 8 k) := by
  obtain ⟨bound, pressed, lower⟩ := lowest
  exact (s.chosenKey?_eq_some_iff _).mpr ⟨k, bound, rfl, pressed, lower⟩

/-- A key's number fits a register. -/
theorem toNat_ofNat_of_lowestKey {k : Nat} (lowest : LowestKey keys k) : (BitVec.ofNat 8 k).toNat = k :=
  Nat.mod_eq_of_lt (by have := lowest.1; omega)

/-! ### TICK -/

theorem tick_DT_toNat (s : State) : s.tick.DT.toNat = s.DT.toNat - 1 := countDown_toNat _
theorem tick_ST_toNat (s : State) : s.tick.ST.toNat = s.ST.toNat - 1 := countDown_toNat _

/-- A run of the machine takes its first step and goes on. -/
theorem run_succ_of_step (n : Nat) (h : step s = .next t) :
    Host.Core.run Sys2Proof.core (n + 1) s = Host.Core.run Sys2Proof.core n t := by
  have first : Sys2Proof.core.step s = .next t := h
  simp only [Host.Core.run, first]

/-! ### LOAD -/

/-- An accepted image is read back from 0x200 onward (R253). -/
theorem State.loadImage_read (s : State) {image : List Byte} (fits : image.length ≤ maxImage) {a : Nat}
    (below : a < 4096) : (s.loadImage image).read a =
      if 0x200 ≤ a then (image[a - 0x200]?).getD (s.read a) else s.read a := by
  have := Memory.read_writeBytes image s.mem progBase a (by simp only [maxImage, progBase] at *; omega)
  rw [Nat.mod_eq_of_lt below] at this
  rw [s.loadImage_of_fits fits]
  exact this

/-- LOAD changes memory alone (R253). -/
theorem State.loadImage_eq (s : State) (image : List Byte) :
    s.loadImage image = s.setMem (s.loadImage image).mem := by
  unfold State.loadImage
  split <;> rfl

theorem unchanged_loadImage (s : State) (image : List Byte) {p : Part} (notByte : ∀ a, p ≠ .byte a) :
    Unchanged s (s.loadImage image) p := by
  rw [s.loadImage_eq]
  cases p
  case byte a => exact absurd rfl (notByte a)
  all_goals rfl

/-! ### RESET -/

/-- The RESET contents are FONT from address 0 (R35). -/
theorem Memory.initial_of_lt {a : Nat} (inFont : a < 80) : some (Memory.initial a) = font[a]? := by
  rw [Memory.initial, List.getD_eq_getElem?_getD, List.getElem?_eq_getElem (font_length ▸ inFont)]
  rfl

/-- Above FONT the RESET contents are 0 (R35). -/
theorem Memory.initial_of_le {a : Nat} (above : 80 ≤ a) : Memory.initial a = 0 := by
  rw [Memory.initial, List.getD_eq_getElem?_getD, List.getElem?_eq_none (font_length ▸ above)]
  rfl

theorem State.resetEngine_read (s : State) {a : Nat} (below : a < 4096) : s.resetEngine.read a = Memory.initial a :=
  congrArg Memory.initial (Nat.mod_eq_of_lt below)

end Sys2Proof.Machine

namespace Sys2Proof.Proofs

open Sys2Proof.Machine

/-- Settles O50. A legal state's stack is never above the bound, so no room means 16 entries. -/
theorem exactlyTwoFaultConditions : Obligations.ExactlyTwoFaultConditions := by
  refine fun op s ⟨_, bound⟩ =>
    ⟨?condition, fun f faults ⟨nnn, isCall⟩ => ?callCode, fun f faults ⟨c, b, isRet⟩ => ?retCode⟩
  case condition =>
    simp only [perform_eq_fault_iff, FaultsWith]
    constructor
    · rintro ⟨f, isStep, noWait, ⟨⟨nnn, isCall⟩, full, -⟩ | ⟨⟨c, b, isRet⟩, empty, -⟩⟩
      · exact ⟨isStep, noWait, .inl ⟨nnn, isCall, le_antisymm bound full⟩⟩
      · exact ⟨isStep, noWait, .inr ⟨c, b, isRet, empty⟩⟩
    · rintro ⟨isStep, noWait, ⟨nnn, isCall, full⟩ | ⟨c, b, isRet, empty⟩⟩
      · exact ⟨_, isStep, noWait, .inl ⟨⟨nnn, isCall⟩, full.ge, rfl⟩⟩
      · exact ⟨_, isStep, noWait, .inr ⟨⟨c, b, isRet⟩, empty, rfl⟩⟩
  case callCode =>
    obtain ⟨-, -, ⟨-, -, rfl⟩ | ⟨⟨c, b, isRet⟩, -⟩⟩ := perform_eq_fault_iff.mp faults
    · rw [faults]
      rfl
    · simp [isCall] at isRet
  case retCode =>
    obtain ⟨-, -, ⟨⟨nnn, isCall⟩, -⟩ | ⟨-, -, rfl⟩⟩ := perform_eq_fault_iff.mp faults
    · simp [isRet] at isCall
    · rw [faults]
      rfl

/-- Settles O51. The report is the encoding of what was decoded, which is the word fetched. -/
theorem faultReportsTheFetchedWord : Obligations.FaultReportsTheFetchedWord := by
  intro s keys rnd f faults
  obtain ⟨-, ⟨-, -, report⟩ | ⟨-, -, report⟩⟩ := stepOp_eq_fault_iff.mp faults
  · exact .inl report
  · exact .inr report

/-- Settles O52. A fault depends neither on the inputs nor on the timers. -/
theorem faultRepeatsUntilResetOrLoad : Obligations.FaultRepeatsUntilResetOrLoad :=
  fun _ _ _ _ _ _ n faults => stepOp_eq_fault_iff.mpr ((stepOp_eq_fault_iff.mp faults).tick_iterate n)

/-- Settles O54. -/
theorem noStepIsRefused : Obligations.NoStepIsRefused := fun _ => perform_ne_refused _ _

/-- Settles O9, by whether the state after the STEP is waiting for a key. -/
theorem stepStatusTellsTheKeyWait : Obligations.StepStatusTellsTheKeyWait := by
  intro s t keys rnd h
  rw [h, ← stepOp_wait_iff h]
  cases waiting : t.KW.valid <;> simp [statusOf, waiting]

/-- Settles O11, by induction on the number of TICKs. -/
theorem repeatedTicksStopAtZero : Obligations.RepeatedTicksStopAtZero := by
  intro n
  induction n with
  | zero => exact fun s rest scheduled => ⟨s, rfl, rfl, rfl, rfl, rfl, scheduled⟩
  | succ n ih =>
    intro s rest scheduled
    obtain ⟨t, runs, delay, sound, wait, pc, left⟩ :=
      ih ({ s with pending := List.replicate n .tick ++ rest } : State).tick rest rfl
    refine ⟨t, (run_succ_of_step n (step_cons scheduled)).trans runs, ?_, ?_, wait, pc, left⟩
    · rw [delay, tick_DT_toNat, Nat.sub_sub, Nat.add_comm]
    · rw [sound, tick_ST_toNat, Nat.sub_sub, Nat.add_comm]

/-- Settles O13, by whether the image fits. -/
theorem loadWritesTheImageAndNothingElse : Obligations.LoadWritesTheImageAndNothingElse := by
  intro s image rest scheduled
  refine ⟨fun fits => ⟨(loadResult_loaded_iff image).mpr fits, _, step_cons scheduled, fun k b listed => ?image,
    fun a below outside => ?outside, fun p notByte => unchanged_loadImage _ image notByte, ?rest⟩,
    fun tooLarge => ?refused⟩
  case image =>
    have inImage : k < image.length := (List.getElem?_eq_some_iff.mp listed).1
    rw [State.loadImage_read _ fits (by omega), if_pos (Nat.le_add_right _ _), Nat.add_sub_cancel_left, listed]
    rfl
  case outside =>
    rw [State.loadImage_read _ fits below]
    split
    · rw [List.getElem?_eq_none (by omega)]
      rfl
    · rfl
  case rest =>
    rw [State.loadImage_eq]
    exact ⟨rfl, rfl, rfl, rfl, rfl⟩
  case refused =>
    rw [step_cons scheduled, perform, State.loadImage_of_tooLarge _ tooLarge]
    exact ⟨if_pos tooLarge, rfl⟩

/-- Settles O7. -/
theorem stepRunsTheInstructionAtPc : Obligations.StepRunsTheInstructionAtPc := by
  intro i s wf noWait high low
  have decoded : decode s.fetch = i := by rw [State.fetch, high, low, wordOf_bytes, decode_encode wf]
  refine ⟨fun keys rnd rest scheduled => ?scheduled, fun empty => ?free⟩
  case scheduled =>
    rw [step_of_pending_step scheduled noWait, decoded]
    rfl
  case free =>
    rw [step_nil empty, ← decoded]
    exact stepOp_of_noWait (s := { s with draws := s.draws + 1 }) noWait

/-- Settles O8, by whether a key is pressed. -/
theorem stepResumesPendingKeyWait : Obligations.StepResumesPendingKeyWait := by
  intro s keys rnd rest waiting scheduled
  have resumes : step s = .next (({ s with pending := rest } : State).sample keys rnd).resumeKeyWait := by
    rw [step_cons scheduled]
    exact stepOp_of_wait waiting
  refine ⟨fun k lowest => ?pressed, fun noKey => ?idle⟩
  case pressed =>
    rw [resumes, State.resumeKeyWait_some _ (State.chosenKey?_of_lowestKey lowest)]
    refine ⟨_, rfl, ?_, rfl, rfl, rfl, ?_⟩
    · exact (congrArg BitVec.toNat (State.reg_setReg_self _ _ _)).trans (toNat_ofNat_of_lowestKey lowest)
    · exact ((changesOnly_setReg _ _ _).trans (changesOnly_setKW _ _)).adv 2
  case idle =>
    rw [resumes, State.resumeKeyWait_none _ ((State.chosenKey?_eq_none_iff_zero _).mpr noKey)]
    exact ⟨rfl, by simp [statusOf, waiting]⟩

/-- Settles O12. -/
theorem resetSetsEveryPart : Obligations.ResetSetsEveryPart := by
  refine fun s rest scheduled => ⟨_, step_cons scheduled, Engine.reset_reg, rfl, rfl, rfl, rfl, rfl, rfl,
    fun a inFont => ?font, fun a above below => ?above, Disp.cell_blank, rfl, rfl, rfl, rfl⟩
  case font => rw [State.resetEngine_read _ (by omega), Memory.initial_of_lt inFont]
  case above => rw [State.resetEngine_read _ below, Memory.initial_of_le above]

end Sys2Proof.Proofs

/-! What every instruction does with PC, the inputs and the sound timer (R33, R34, R86, R231). -/

namespace Sys2Proof.Machine

/-! ### PC -/

/-- A skip's target, by a condition stated as a proposition (R86). -/
theorem State.pc_skipIf_of_iff (s : State) {c : Bool} {p : Prop} [Decidable p] (h : c = true ↔ p) :
    (s.skipIf c).pc = if p then s.pc + 4 else s.pc + 2 := by
  rw [State.skipIf_pc, if_congr h rfl rfl]
  split <;> rfl

theorem State.pc_skipIf_keyDown (s : State) (k : Nat) :
    (s.skipIf (s.keyDown k)).pc = if k ≤ 15 ∧ s.keys.getLsbD k = true then s.pc + 4 else s.pc + 2 :=
  s.pc_skipIf_of_iff (s.keyDown_iff k)

theorem State.pc_skipIf_not_keyDown (s : State) (k : Nat) :
    (s.skipIf !s.keyDown k).pc = if k ≤ 15 ∧ s.keys.getLsbD k = true then s.pc + 2 else s.pc + 4 := by
  rw [s.pc_skipIf_of_iff (p := ¬(k ≤ 15 ∧ s.keys.getLsbD k = true)) (by rw [← s.keyDown_iff k]; simp), ite_not]

theorem zextAddr_eq_ofNat (nnn : Addr) : zextAddr nnn = BitVec.ofNat 16 nnn.toNat :=
  (BitVec.ofNat_toNat 16 nnn).symm

theorem State.regWord_toNat (s : State) (x : Nibble) : (s.regWord x).toNat = (s.reg x).toNat :=
  BitVec.toNat_setWidth_of_le (by decide)

/-- JP V0's target does not wrap: 4095 + 255 is below 65536 (R118). -/
theorem zextAddr_add_regWord_toNat (s : State) (nnn : Addr) (x : Nibble) :
    (zextAddr nnn + s.regWord x).toNat = nnn.toNat + (s.reg x).toNat := by
  have h1 := nnn.isLt
  have h2 := (s.reg x).isLt
  rw [BitVec.toNat_add, zextAddr_toNat, State.regWord_toNat]
  omega

/-- An instruction that completes leaves PC as its class says (R86). -/
theorem exec_pc {i : Instr} {s t : State} (h : exec i s = .next t) : t.pc = pcAfter i s := by
  cases i
  case ret =>
    obtain ⟨rest, v, entry, rfl⟩ := execRet_next h
    simp [pcAfter, entry]
  case call =>
    obtain ⟨-, rfl⟩ := execCall_next h
    exact zextAddr_eq_ofNat _
  case ldVxK x =>
    rw [pcAfter, ← if_congr s.chosenKey?_eq_none_iff_zero rfl rfl]
    obtain ⟨key, chosen, rfl⟩ | ⟨chosen, rfl⟩ := execLdVxK_next h <;> simp [chosen]
  all_goals obtain rfl := Host.Outcome.next.inj h
  case seByte | seReg => exact s.pc_skipIf_beq _ _
  case sneByte | sneReg => exact s.pc_skipIf_bne _ _
  case skp => exact s.pc_skipIf_keyDown _
  case sknp => exact s.pc_skipIf_not_keyDown _
  case jp => exact zextAddr_eq_ofNat _
  case jpV0 nnn =>
    refine BitVec.eq_of_toNat_eq ((zextAddr_add_regWord_toNat s nnn 0).trans (Nat.mod_eq_of_lt ?_).symm)
    have h1 := nnn.isLt
    have h2 := (s.reg 0).isLt
    omega
  case ldMemVx => rw [State.adv_pc, State.storeRegs_pc, pcAfter]
  case ldVxMem => rw [State.adv_pc, State.loadRegs_pc, pcAfter]
  all_goals rfl

/-! ### What an instruction does not observe -/

/-- The state with other input samples and another sound timer. -/
def State.unseen (keys : Word) (rnd ST : Byte) (s : State) : State := (s.sample keys rnd).setST ST

/-- A map of states, taken through an outcome. -/
def onNext (g : State → State) : Host.Outcome State Fault Refusal → Host.Outcome State Fault Refusal
  | .next t => .next (g t)
  | .fault f => .fault f
  | .refused r => .refused r

section Unseen

variable (keys : Word) (rnd ST : Byte) (s : State)

theorem State.unseen_skipIf (c : Bool) : (s.unseen keys rnd ST).skipIf c = (s.skipIf c).unseen keys rnd ST := by
  cases c <;> rfl

theorem State.unseen_storeRegs (n : Nat) :
    (s.unseen keys rnd ST).storeRegs n = (s.storeRegs n).unseen keys rnd ST := by
  induction n with
  | zero => rfl
  | succ n ih => rw [State.storeRegs_succ, State.storeRegs_succ, ih]; rfl

theorem State.unseen_loadRegs (n : Nat) :
    (s.unseen keys rnd ST).loadRegs n = (s.loadRegs n).unseen keys rnd ST := by
  induction n with
  | zero => rfl
  | succ n ih => rw [State.loadRegs_succ, State.loadRegs_succ, ih]; rfl

/-- Every instruction but FX18, which writes ST, does the same whatever ST is, and whatever the inputs are if it does
not read them (R33, R34, R231). -/
theorem exec_unseen {i : Instr} (inputs : ReadsInputs i → keys = s.keys ∧ rnd = s.rnd) (notST : ∀ x, i ≠ .ldSTVx x) :
    exec i (s.unseen keys rnd ST) = onNext (State.unseen keys rnd ST) (exec i s) := by
  cases i
  case ldSTVx x => exact absurd rfl (notST x)
  case call nnn =>
    obtain room | full := Nat.lt_or_ge s.stack.length stackDepth
    · exact (execCall_of_room (s := s.unseen keys rnd ST) room nnn).trans
        (congrArg (onNext (State.unseen keys rnd ST)) (execCall_of_room room nnn)).symm
    · exact (execCall_of_full (s := s.unseen keys rnd ST) full nnn).trans
        (congrArg (onNext (State.unseen keys rnd ST)) (execCall_of_full full nnn)).symm
  case ret c b =>
    obtain empty | ⟨rest, v, entry⟩ := List.eq_nil_or_concat' s.stack
    · exact (execRet_of_stack_nil (s := s.unseen keys rnd ST) empty c b).trans
        (congrArg (onNext (State.unseen keys rnd ST)) (execRet_of_stack_nil empty c b)).symm
    · exact (execRet_of_stack_concat (s := s.unseen keys rnd ST) entry c b).trans
        (congrArg (onNext (State.unseen keys rnd ST)) (execRet_of_stack_concat entry c b)).symm
  case seByte | sneByte | seReg | sneReg => exact congrArg Host.Outcome.next (s.unseen_skipIf keys rnd ST _)
  case ldMemVx x => exact congrArg (fun t => Host.Outcome.next (t.adv 2)) (s.unseen_storeRegs keys rnd ST _)
  case ldVxMem x => exact congrArg (fun t => Host.Outcome.next (t.adv 2)) (s.unseen_loadRegs keys rnd ST _)
  case rnd =>
    obtain ⟨rfl, rfl⟩ := inputs trivial
    rfl
  case skp | sknp =>
    obtain ⟨rfl, rfl⟩ := inputs trivial
    exact congrArg Host.Outcome.next (s.unseen_skipIf s.keys s.rnd ST _)
  case ldVxK x =>
    obtain ⟨rfl, rfl⟩ := inputs trivial
    have sameKey : (s.unseen s.keys s.rnd ST).chosenKey? = s.chosenKey? := rfl
    rw [exec, exec, execLdVxK, execLdVxK, sameKey]
    cases s.chosenKey? <;> rfl
  all_goals rfl

end Unseen

end Sys2Proof.Machine

namespace Sys2Proof.Proofs

open Sys2Proof.Machine

/-- Settles O46. -/
theorem everyInstructionFollowsItsPcClass : Obligations.EveryInstructionFollowsItsPcClass := fun _ _ _ => exec_pc

/-- Settles O48. FX18 reads no input; every other instruction runs alike, and leaves ST alone. -/
theorem otherInstructionsIgnoreTheInputs : Obligations.OtherInstructionsIgnoreTheInputs := by
  intro i s keys rnd noInputs
  by_cases isST : ∃ x, i = .ldSTVx x
  · obtain ⟨x, rfl⟩ := isST
    refine ⟨fun t h => ?_, fun f h => nomatch h⟩
    obtain rfl := Host.Outcome.next.inj h
    rfl
  · have alike := exec_unseen keys rnd s.ST s (i := i) (fun reads => absurd reads noInputs) (not_exists.mp isST)
    refine ⟨fun t h => ?_, fun f h => ?_⟩
    · have keptST : t.ST = s.ST := by_contra fun changed => isST (exec_ST_changed h changed)
      have carried : t.sample keys rnd = t.unseen keys rnd s.ST := by rw [← keptST]; rfl
      rw [h] at alike
      rw [carried]
      exact alike
    · rw [h] at alike
      exact alike

/-- Settles O49. FX18 overwrites ST; every other instruction carries it along. -/
theorem noInstructionObservesST : Obligations.NoInstructionObservesST := by
  intro i s b
  by_cases isST : ∃ x, i = .ldSTVx x
  · obtain ⟨x, rfl⟩ := isST
    refine ⟨fun t h => ⟨_, rfl, ?_⟩, fun f h => nomatch h⟩
    obtain rfl := Host.Outcome.next.inj h
    rfl
  · have alike := exec_unseen s.keys s.rnd b s (i := i) (fun _ => ⟨rfl, rfl⟩) (not_exists.mp isST)
    refine ⟨fun t h => ⟨_, (by rw [h] at alike; exact alike), ?_⟩, fun f h => ?_⟩
    · obtain ⟨-, keys, rnd, -⟩ := exec_changesOnly h
      rw [State.unseen, ← keys, ← rnd]
      rfl
    · rw [h] at alike
      exact alike

end Sys2Proof.Proofs

/-! The statements about single instructions: words of the decoder's families, jumps and skips, the bitwise forms, RND,
the index register, timers and keys (R87 to R95, R110 to R118, R142 to R151, R171, R172, R200 to R208). -/

namespace Sys2Proof.Machine

/-! ### FX0A -/

/-- FX0A with a key pressed takes it (R203). -/
theorem execLdVxK_of_some {s : State} {key : Byte} (chosen : s.chosenKey? = some key) (x : Nibble) :
    execLdVxK x s = .next ((s.setReg x key).adv 2) := by rw [execLdVxK, chosen]

/-- FX0A with none pressed enters the wait (R203). -/
theorem execLdVxK_of_none {s : State} (none : s.chosenKey? = none) (x : Nibble) :
    execLdVxK x s = .next (s.setKW ⟨true, x⟩) := by rw [execLdVxK, none]

end Sys2Proof.Machine

namespace Sys2Proof.Proofs

open Sys2Proof.Machine

/-- Settles O1. -/
theorem specWordsDecodeAsWritten : Obligations.SpecWordsDecodeAsWritten := by
  unfold Obligations.SpecWordsDecodeAsWritten
  decide

/-- Settles O5. No meaning looks at the nibbles that are not examined but the fault report of RET, and RET completes
here. -/
theorem aliasWordsRunAsCanonicalOnes : Obligations.AliasWordsRunAsCanonicalOnes := by
  intro x y z s t
  simp only [decode_ofNibbles]
  refine ⟨id, fun h => ?ret, id, id, id, id⟩
  case ret =>
    obtain ⟨rest, v, entry, rfl⟩ := execRet_next h
    exact execRet_of_stack_concat entry x y

/-- Settles O14. -/
theorem sysOnlyAdvances : Obligations.SysOnlyAdvances := by
  refine ⟨fun c b a notCls notRet => ?decoded, fun nnn s => ⟨_, rfl, rfl, changesOnly_adv s 2⟩⟩
  case decoded =>
    rw [decode_ofNibbles]
    exact decode0_of_ne notCls notRet c b

/-- Settles O19. -/
theorem registerSkipsCompareRegisters : Obligations.RegisterSkipsCompareRegisters := fun x y _ s =>
  ⟨decode_ofNibbles _ _ _ _, decode_ofNibbles _ _ _ _,
    ⟨_, rfl, s.pc_skipIf_beq (s.reg x) (s.reg y), changesOnly_skipIf s _⟩,
    ⟨_, rfl, s.pc_skipIf_bne (s.reg x) (s.reg y), changesOnly_skipIf s _⟩⟩

/-- Settles O20. -/
theorem jpV0AddsV0 : Obligations.JpV0AddsV0 := fun _ _ _ s =>
  ⟨decode_ofNibbles _ _ _ _, _, rfl, zextAddr_add_regWord_toNat s _ 0x0, changesOnly_setPc s _⟩

/-- Settles O21. CALL leaves its return address on top of the stack it found, and RET takes it off. -/
theorem retReturnsAfterTheCall : Obligations.RetReturnsAfterTheCall := by
  intro nnn c b s t u called sameStack
  obtain ⟨-, rfl⟩ := execCall_next called
  exact ⟨_, execRet_of_stack_concat sameStack c b, rfl, rfl⟩

/-- Settles O24. -/
theorem bitwiseFormsCombineRegisters : Obligations.BitwiseFormsCombineRegisters := by
  refine fun x y s => ⟨decode_ofNibbles _ _ _ _, decode_ofNibbles _ _ _ _, decode_ofNibbles _ _ _ _,
    decode_ofNibbles _ _ _ _, ⟨_, rfl, s.reg_setReg_self x _, rfl, (changesOnly_setReg s x _).adv 2⟩,
    ⟨_, rfl, fun k => ?or, rfl, (changesOnly_setReg s x _).adv 2⟩,
    ⟨_, rfl, fun k => ?and, rfl, (changesOnly_setReg s x _).adv 2⟩,
    ⟨_, rfl, fun k => ?xor, rfl, (changesOnly_setReg s x _).adv 2⟩⟩
  case or => rw [State.adv_reg, State.reg_setReg_self, BitVec.getLsbD_or]
  case and => rw [State.adv_reg, State.reg_setReg_self, BitVec.getLsbD_and]
  case xor => rw [State.adv_reg, State.reg_setReg_self, BitVec.getLsbD_xor]

/-- Settles O28. -/
theorem rndMasksTheSample : Obligations.RndMasksTheSample := by
  refine fun x b a s => ⟨decode_ofNibbles _ _ _ _, _, rfl, fun k => ?masked, rfl, (changesOnly_setReg s x _).adv 2⟩
  case masked => rw [State.adv_reg, State.reg_setReg_self, BitVec.getLsbD_and]

/-- Settles O31. -/
theorem addIWrapsAt65536 : Obligations.AddIWrapsAt65536 := by
  refine fun x s => ⟨decode_ofNibbles _ _ _ _, _, rfl, ?sum, rfl, (changesOnly_setI s _).adv 2⟩
  case sum => rw [State.adv_I, State.setI_I, BitVec.toNat_add, State.regWord_toNat]

/-- Settles O32. The product does not wrap: 5 times 255 is below 65536. -/
theorem ldFPointsAtGlyph : Obligations.LdFPointsAtGlyph := by
  refine fun x s => ⟨decode_ofNibbles _ _ _ _, _, rfl, ?product, rfl, (changesOnly_setI s _).adv 2⟩
  case product =>
    have byte := (s.reg x).isLt
    have five : (5 : Word).toNat = 5 := rfl
    rw [State.adv_I, State.setI_I, BitVec.toNat_mul, State.regWord_toNat, five]
    exact Nat.mod_eq_of_lt (by omega)

/-- Settles O42. -/
theorem keySkipsTestTheSnapshot : Obligations.KeySkipsTestTheSnapshot := fun _ _ s =>
  ⟨decode_ofNibbles _ _ _ _, decode_ofNibbles _ _ _ _,
    ⟨_, rfl, changesOnly_skipIf s _, s.pc_skipIf_keyDown _⟩,
    ⟨_, rfl, changesOnly_skipIf s _, s.pc_skipIf_not_keyDown _⟩⟩

/-- Settles O43. -/
theorem timerTransfersCopyBytes : Obligations.TimerTransfersCopyBytes := fun x s =>
  ⟨decode_ofNibbles _ _ _ _, decode_ofNibbles _ _ _ _, decode_ofNibbles _ _ _ _,
    ⟨_, rfl, s.reg_setReg_self x _, rfl, (changesOnly_setReg s x _).adv 2⟩,
    ⟨_, rfl, rfl, rfl, (changesOnly_setDT s _).adv 2⟩, ⟨_, rfl, rfl, rfl, (changesOnly_setST s _).adv 2⟩⟩

/-- Settles O44, by whether a key is pressed. -/
theorem ldKTakesLowestKeyOrWaits : Obligations.LdKTakesLowestKeyOrWaits := by
  refine fun x s => ⟨decode_ofNibbles _ _ _ _, fun k lowest => ?pressed, fun noKey => ?waits⟩
  case pressed =>
    refine ⟨_, execLdVxK_of_some (State.chosenKey?_of_lowestKey lowest) x, ?_, rfl, (changesOnly_setReg s x _).adv 2⟩
    rw [State.adv_reg, State.reg_setReg_self, toNat_ofNat_of_lowestKey lowest]
  case waits =>
    exact ⟨_, execLdVxK_of_none (s.chosenKey?_eq_none_iff_zero.mpr noKey) x, rfl, rfl, changesOnly_setKW s _⟩

end Sys2Proof.Proofs
